-- ==== Sys2Proof/Word.lean ====
section
/-! DEFINITION. The word types of the block (00_scope.md R16, R17). Widths that the configuration fixes (`P`, `W`, the
width of `numActive`) have no type here: those registers are natural numbers below an explicit power of two. -/

namespace Sys2Proof

/-- A `u_8`: an input byte, a volume, a duty value, a stored key, a decoder latch (00_scope.md R16). -/
abbrev Byte := BitVec 8

/-- A `u_7`: a key or velocity operand, `0..127` (00_scope.md R16, 30_encoding.md R74). -/
abbrev Data7 := BitVec 7

/-- The `cmd` field of a status byte (30_encoding.md R71). -/
abbrev Cmd := BitVec 3

/-- The `ch` field of a status byte, `0..15` (30_encoding.md R71). -/
abbrev Channel := BitVec 4

/-- A command-port word (30_encoding.md R78). -/
abbrev PortWord := BitVec 15

end Sys2Proof
end

