-- ==== Sys2Proof/Config.lean ====
section
/-! DEFINITION. The configuration value of 00_scope.md section 4 (R6 to R15) and the free values of 60_exceptions.md
R306. Which configurations have a meaning is `Machine.configValid` (Machine/Tables.lean). -/

namespace Sys2Proof

/-- `SMOOTHING_POLICY` (00_scope.md R8). -/
inductive Policy where
  | none
  | transition
  | waitNewPhase
  deriving DecidableEq, Repr

/-- The one configuration value, "resolved once at startup" (10_state.md R36). Plain data, so that a run can be written
out; `VELOCITY_MAP` is therefore its table of 128 values. -/
structure Config where
  /-- `VOICE_COUNT` (R6). -/
  N : Nat
  /-- `ACC_WIDTH`, the width of phase and increment (R7). -/
  P : Nat
  /-- `SMOOTHING_POLICY` (R8). -/
  policy : Policy
  /-- `octaveLookupEnabled` (R9). -/
  octaveLookup : Bool
  /-- `MIDI_CHANNEL` (R10); four bits, so every value is in `0..15`. -/
  midiChannel : Channel
  /-- `MAX_OCTAVE` (R11). -/
  maxOctave : Nat
  /-- `FREQ_TABLE[0..11]` (R12), the contents of the ROM `FREQ` (40_tables.md R104). -/
  freqTable : List Nat
  /-- `VELOCITY_MAP` (R13): entry `v` is the volume of velocity `v`. -/
  velocityMap : List Byte
  /-- `AGE_WIDTH` (R14); the spec's default is 8. -/
  W : Nat := 8
  /-- `ATOMIC_ASSIGN` (R15); the spec's default is `true`. -/
  atomicAssign : Bool := true
  deriving DecidableEq, Repr

/-- CFG-A of 95_test_vectors.md, the configuration `State.reset` carries.
DESIGN CHOICE (assumption 1): the spec leaves the values open; no statement rests on them. -/
def Config.cfgA : Config where
  N := 6
  P := 16
  policy := .transition
  octaveLookup := false
  midiChannel := 0
  maxOctave := 10
  freqTable := (List.range 12).map fun s => 16384 + 1024 * s
  velocityMap := (List.range 128).map fun v => BitVec.ofNat 8 v

/-- The draw of an increment (60_exceptions.md R306): a free value, one for each draw number and voice index.
The tick reduces it modulo `2^P`. No body, so nothing can be proved of its value (assumption 11). -/
opaque freeIncrement : Nat → Nat → Nat

/-- The draw of a target volume (60_exceptions.md R306): whether the tick reads the old target. A free value, no body
(assumption 11). -/
opaque freeReadsOldTarget : Nat → Nat → Bool

end Sys2Proof
end

