-- ==== Sys2Proof/Machine/Boundary.lean ====
section
/-! DEFINITION. What crosses the block's boundary, and the decoder's position: the encoded inputs of 30_encoding.md, the
duty output of 43_pwm_duty_gen.md, the states of 45_midi_decoder.md. -/

namespace Sys2Proof

/-- `dec.state` (10_state.md R33). -/
inductive DecState where
  | seekStatus
  | decodeStatus
  | readParam1
  | readParam2
  deriving DecidableEq, Repr

/-- `dec.kind` (10_state.md R34); the code 3 is never written. -/
inductive Kind where
  | off
  | on
  | ignore
  deriving DecidableEq, Repr

/-- The operand-free lines (30_encoding.md R79). `internal` is no line of the hardware: it is the schedule's choice that the
foreground agent takes its internal step now (assumption 3). -/
inductive Strobe where
  | tick
  | reset
  | internal
  deriving DecidableEq, Repr

/-- One input as the environment presents it, still encoded. -/
inductive Input where
  /-- A strobe (30_encoding.md R79). -/
  | strobe (line : Strobe)
  /-- One received serial byte (30_encoding.md R70). -/
  | byte (b : Byte)
  /-- One command-port word (30_encoding.md R78). -/
  | port (w : PortWord)
  /-- Three bytes in a row, the notation `MSG` of 30_encoding.md R81: status, parameter 1, parameter 2. -/
  | message (status param1 param2 : Byte)
  deriving DecidableEq, Repr

/-- Why an input is not decoded into an operation. -/
inductive Reject where
  /-- `RX_BYTE` is not enabled in `DECODE_STATUS`; the byte is kept (45_midi_decoder.md R222). -/
  | byteHeld
  /-- The foreground agent has no internal step outside `DECODE_STATUS` (45_midi_decoder.md R222). -/
  | noInternalStep
  /-- Three bytes whose first is no status byte are no message (30_encoding.md R73). -/
  | noMessage
  deriving DecidableEq, Repr

/-- One `emit Duty(i, d)` (00_scope.md R18). -/
structure Emission where
  channel : Nat
  duty : Byte
  deriving DecidableEq, Repr

end Sys2Proof
end

