-- ==== Sys2Proof/Syntax.lean ====
section
/-! DEFINITION. The operations of the block, one constructor per row of spec/opcode_table.json. Field names are the
table's: `c` command, `h` channel, `k` key or parameter 1, `v` velocity or parameter 2, `d` discarded bits. -/

namespace Sys2Proof

inductive Instr where
  /-- RX_BYTE.SEEK_DATA, `0ddddddd` in SEEK_STATUS (45_midi_decoder.md R220). -/
  | rxSeekData (d : Data7)
  /-- RX_BYTE.SEEK_STATUS, `1ccchhhh` in SEEK_STATUS (R221). -/
  | rxSeekStatus (c : Cmd) (h : Channel)
  /-- DECODE, internal (R222). -/
  | decode
  /-- RX_BYTE.PARAM1, `kkkkkkkk` in READ_PARAM1 (R223). -/
  | rxParam1 (k : Byte)
  /-- RX_BYTE.PARAM2, `vvvvvvvv` in READ_PARAM2 (R224). -/
  | rxParam2 (v : Byte)
  /-- MSG.NOTE_OFF, `1000hhhh 0kkkkkkk 0vvvvvvv` (R224). -/
  | msgNoteOff (h : Channel) (k v : Data7)
  /-- MSG.NOTE_ON, `1001hhhh 0kkkkkkk 0vvvvvvv`, velocity non-zero (R224). -/
  | msgNoteOn (h : Channel) (k v : Data7)
  /-- MSG.NOTE_ON_V0, `1001hhhh 0kkkkkkk 00000000` (R229). -/
  | msgNoteOnV0 (h : Channel) (k : Data7)
  /-- MSG.NOT_SERVICED, `1ccchhhh kkkkkkkk vvvvvvvv` on another channel (R228). -/
  | msgNotServiced (c : Cmd) (h : Channel) (k v : Byte)
  /-- MSG.KEY_BIT7, `1ccchhhh 1kkkkkkk vvvvvvvv` (30_encoding.md R75). -/
  | msgKeyBit7 (c : Cmd) (h : Channel) (k : Data7) (v : Byte)
  /-- MSG.VEL_BIT7, `1ccchhhh kkkkkkkk 1vvvvvvv` (30_encoding.md R75). -/
  | msgVelBit7 (c : Cmd) (h : Channel) (k : Byte) (v : Data7)
  /-- MSG.IGNORED_A, `1010hhhh kkkkkkkk vvvvvvvv` (R224). -/
  | msgIgnoredA (h : Channel) (k v : Byte)
  /-- MSG.IGNORED_B, `1011hhhh kkkkkkkk vvvvvvvv` (R224). -/
  | msgIgnoredB (h : Channel) (k v : Byte)
  /-- MSG.IGNORED_C, `1100hhhh kkkkkkkk vvvvvvvv` (R224). -/
  | msgIgnoredC (h : Channel) (k v : Byte)
  /-- MSG.IGNORED_D, `1101hhhh kkkkkkkk vvvvvvvv` (R224). -/
  | msgIgnoredD (h : Channel) (k v : Byte)
  /-- MSG.IGNORED_E, `1110hhhh kkkkkkkk vvvvvvvv` (R224). -/
  | msgIgnoredE (h : Channel) (k v : Byte)
  /-- MSG.IGNORED_F, `1111hhhh kkkkkkkk vvvvvvvv` (R224). -/
  | msgIgnoredF (h : Channel) (k v : Byte)
  /-- CMD_NOTE_ON, port word `1kkkkkkkvvvvvvv` (44_voice_allocator.md R180). -/
  | cmdNoteOn (k v : Data7)
  /-- CMD_NOTE_OFF, port word `0kkkkkkkvvvvvvv` (R196). -/
  | cmdNoteOff (k v : Data7)
  /-- TICK, a strobe (41_phase_accumulator.md R123). -/
  | tick
  /-- RESET, a strobe (70_reset_and_hazards.md R400). -/
  | reset
  deriving DecidableEq, Repr

end Sys2Proof
end

