-- ==== Sys2Proof/WellFormed.lean ====
section
/-! DEFINITION. The side conditions of the opcode table. A row's condition on the channel is a condition on the
configuration's `MIDI_CHANNEL`, so it is an argument here. -/

namespace Sys2Proof

/-- The row's own side conditions in spec/opcode_table.json, `ch` being `MIDI_CHANNEL`. -/
def Instr.wf (ch : Channel) : Instr → Bool
  | .rxSeekData _ => true
  | .rxSeekStatus _ _ => true
  | .decode => true
  | .rxParam1 _ => true
  | .rxParam2 _ => true
  | .msgNoteOff h _ _ => h == ch
  | .msgNoteOn h _ v => h == ch && v != 0
  | .msgNoteOnV0 h _ => h == ch
  | .msgNotServiced _ h _ _ => h != ch
  | .msgKeyBit7 _ _ _ _ => true
  | .msgVelBit7 _ _ _ _ => true
  | .msgIgnoredA _ _ _ => true
  | .msgIgnoredB _ _ _ => true
  | .msgIgnoredC _ _ _ => true
  | .msgIgnoredD _ _ _ => true
  | .msgIgnoredE _ _ _ => true
  | .msgIgnoredF _ _ _ => true
  | .cmdNoteOn _ _ => true
  | .cmdNoteOff _ _ => true
  | .tick => true
  | .reset => true

/-- No more specific row of the table claims the same word. The masks of MSG.NOT_SERVICED, MSG.KEY_BIT7 and MSG.VEL_BIT7
overlap the others; the row with more fixed bits names the word, the earlier row where they fix as many
(assumption 5). -/
def Instr.canonical : Instr → Bool
  | .rxSeekData _ => true
  | .rxSeekStatus _ _ => true
  | .decode => true
  | .rxParam1 _ => true
  | .rxParam2 _ => true
  | .msgNoteOff _ _ _ => true
  | .msgNoteOn _ _ _ => true
  | .msgNoteOnV0 _ _ => true
  | .msgNotServiced c _ k v => decide (c < 2) && !k.msb && !v.msb
  | .msgKeyBit7 c _ _ _ => decide (c < 2)
  | .msgVelBit7 c _ k _ => decide (c < 2) && !k.msb
  | .msgIgnoredA _ _ _ => true
  | .msgIgnoredB _ _ _ => true
  | .msgIgnoredC _ _ _ => true
  | .msgIgnoredD _ _ _ => true
  | .msgIgnoredE _ _ _ => true
  | .msgIgnoredF _ _ _ => true
  | .cmdNoteOn _ _ => true
  | .cmdNoteOff _ _ => true
  | .tick => true
  | .reset => true

/-- The decoder positions at which the row's operation is enabled: the table of 45_midi_decoder.md. Ticks, resets, port
commands and whole messages do not depend on the position. -/
def Instr.enabledAt (st : DecState) : Instr → Bool
  | .rxSeekData _ => st == .seekStatus
  | .rxSeekStatus _ _ => st == .seekStatus
  | .decode => st == .decodeStatus
  | .rxParam1 _ => st == .readParam1
  | .rxParam2 _ => st == .readParam2
  | .msgNoteOff _ _ _ => true
  | .msgNoteOn _ _ _ => true
  | .msgNoteOnV0 _ _ => true
  | .msgNotServiced _ _ _ _ => true
  | .msgKeyBit7 _ _ _ _ => true
  | .msgVelBit7 _ _ _ _ => true
  | .msgIgnoredA _ _ _ => true
  | .msgIgnoredB _ _ _ => true
  | .msgIgnoredC _ _ _ => true
  | .msgIgnoredD _ _ _ => true
  | .msgIgnoredE _ _ _ => true
  | .msgIgnoredF _ _ _ => true
  | .cmdNoteOn _ _ => true
  | .cmdNoteOff _ _ => true
  | .tick => true
  | .reset => true

end Sys2Proof
end

