-- ==== Sys2Proof/Decode.lean ====
section
/-! DEFINITION. The decoder of inputs, total on every input and rejecting by name, and the encoder
(30_encoding.md; spec/opcode_table.json). -/

namespace Sys2Proof

/-! ## Fields of a byte (R70, R71, R74) -/

/-- Bit 7: `1` marks a status byte (R70). -/
def isStatusByte (b : Byte) : Bool := b.msb

/-- `cmd`, bits 6:4 (R71). -/
def statusCmd (b : Byte) : Cmd := b.extractLsb' 4 3

/-- `ch`, bits 3:0 (R71). -/
def statusChannel (b : Byte) : Channel := b.extractLsb' 0 4

/-- Bits 6:0, the operand a dispatched command receives (R74). -/
def low7 (b : Byte) : Data7 := b.extractLsb' 0 7

/-- `1ccchhhh` (R71). -/
def statusByte (c : Cmd) (h : Channel) : Byte := 1#1 ++ c ++ h

/-- `0ddddddd` (R70). -/
def dataByte (d : Data7) : Byte := 0#1 ++ d

/-- `1ddddddd`: a parameter byte with bit 7 set (R75). -/
def markedByte (d : Data7) : Byte := 1#1 ++ d

/-- The 15-bit word `op key vel` (R78). -/
def portWord (op : BitVec 1) (k v : Data7) : PortWord := op ++ k ++ v

/-- `dec.kind` of a status byte (R76). -/
def kindOf (ch : Channel) (s : Byte) : Kind :=
  if statusChannel s ≠ ch then .ignore
  else if statusCmd s = 0#3 then .off
  else if statusCmd s = 1#3 then .on
  else .ignore

/-! ## Decoding -/

/-- The row an `RX_BYTE(b)` is, by the decoder's position (45_midi_decoder.md, table of enabled operations). -/
def decodeByte (st : DecState) (b : Byte) : Except Reject Instr :=
  match st with
  | .seekStatus =>
    if isStatusByte b then .ok (.rxSeekStatus (statusCmd b) (statusChannel b)) else .ok (.rxSeekData (low7 b))
  | .decodeStatus => .error .byteHeld
  | .readParam1 => .ok (.rxParam1 b)
  | .readParam2 => .ok (.rxParam2 b)

/-- The row of a message with command note-off or note-on: the parameter bits 7 (R75), then the channel, then the
velocity (R224). -/
def decodeNoteMessage (ch : Channel) (c : Cmd) (h : Channel) (k v : Byte) : Instr :=
  if isStatusByte k then .msgKeyBit7 c h (low7 k) v
  else if isStatusByte v then .msgVelBit7 c h k (low7 v)
  else if h ≠ ch then .msgNotServiced c h k v
  else if c = 0#3 then .msgNoteOff h (low7 k) (low7 v)
  else if low7 v = 0#7 then .msgNoteOnV0 h (low7 k)
  else .msgNoteOn h (low7 k) (low7 v)

/-- The row of a message with command `c` (R82): an "other command" whatever its channel and parameters, else
`decodeNoteMessage`. -/
def decodeMessageRow (ch : Channel) (c : Cmd) (h : Channel) (k v : Byte) : Instr :=
  if c = 2#3 then .msgIgnoredA h k v
  else if c = 3#3 then .msgIgnoredB h k v
  else if c = 4#3 then .msgIgnoredC h k v
  else if c = 5#3 then .msgIgnoredD h k v
  else if c = 6#3 then .msgIgnoredE h k v
  else if c = 7#3 then .msgIgnoredF h k v
  else decodeNoteMessage ch c h k v

/-- A message starts with a status byte (R73). -/
def decodeMessage (ch : Channel) (s k v : Byte) : Except Reject Instr :=
  if isStatusByte s then .ok (decodeMessageRow ch (statusCmd s) (statusChannel s) k v) else .error .noMessage

/-- A command-port word: `op` at bit 14, key at 13:7, velocity at 6:0 (R78). Every word is a command. -/
def decodePort (w : PortWord) : Instr :=
  if w.msb then .cmdNoteOn (w.extractLsb' 7 7) (w.extractLsb' 0 7)
  else .cmdNoteOff (w.extractLsb' 7 7) (w.extractLsb' 0 7)

/-- A strobe (R79). The internal step exists in `DECODE_STATUS` only (45_midi_decoder.md R222). -/
def decodeStrobe (st : DecState) : Strobe → Except Reject Instr
  | .tick => .ok .tick
  | .reset => .ok .reset
  | .internal => if st = .decodeStatus then .ok .decode else .error .noInternalStep

/-- The operation an input is, at decoder position `st` on a block that services channel `ch`. -/
def decodeInput (st : DecState) (ch : Channel) : Input → Except Reject Instr
  | .strobe line => decodeStrobe st line
  | .byte b => decodeByte st b
  | .port w => .ok (decodePort w)
  | .message s k v => decodeMessage ch s k v

/-! ## Encoding -/

/-- The input that stands for an operation, from the same table. -/
def encode : Instr → Input
  | .rxSeekData d => .byte (dataByte d)
  | .rxSeekStatus c h => .byte (statusByte c h)
  | .decode => .strobe .internal
  | .rxParam1 k => .byte k
  | .rxParam2 v => .byte v
  | .msgNoteOff h k v => .message (statusByte 0#3 h) (dataByte k) (dataByte v)
  | .msgNoteOn h k v => .message (statusByte 1#3 h) (dataByte k) (dataByte v)
  | .msgNoteOnV0 h k => .message (statusByte 1#3 h) (dataByte k) (dataByte 0#7)
  | .msgNotServiced c h k v => .message (statusByte c h) k v
  | .msgKeyBit7 c h k v => .message (statusByte c h) (markedByte k) v
  | .msgVelBit7 c h k v => .message (statusByte c h) k (markedByte v)
  | .msgIgnoredA h k v => .message (statusByte 2#3 h) k v
  | .msgIgnoredB h k v => .message (statusByte 3#3 h) k v
  | .msgIgnoredC h k v => .message (statusByte 4#3 h) k v
  | .msgIgnoredD h k v => .message (statusByte 5#3 h) k v
  | .msgIgnoredE h k v => .message (statusByte 6#3 h) k v
  | .msgIgnoredF h k v => .message (statusByte 7#3 h) k v
  | .cmdNoteOn k v => .port (portWord 1#1 k v)
  | .cmdNoteOff k v => .port (portWord 0#1 k v)
  | .tick => .strobe .tick
  | .reset => .strobe .reset

/-! ## The words of spec/opcode_table.json as numbers -/

/-- The input that a table word stands for. 8 bits: a serial byte. 15 bits, 16 in whole bytes: a port word. 24 bits: a
message, its status byte in bits 23:16 as the table numbers it. The strobes and DECODE have no bits in the table: with
`nbits = 0` the numbers 0, 1, 2 stand for TICK, RESET, DECODE (assumption 19). -/
def tableInput (nbits w : Nat) : Option Input :=
  match nbits with
  | 0 =>
    match w with
    | 0 => some (.strobe .tick)
    | 1 => some (.strobe .reset)
    | 2 => some (.strobe .internal)
    | _ => none
  | 8 => if w < 2 ^ 8 then some (.byte (BitVec.ofNat 8 w)) else none
  | 15 => if w < 2 ^ 15 then some (.port (BitVec.ofNat 15 w)) else none
  | 16 => if w < 2 ^ 15 then some (.port (BitVec.ofNat 15 w)) else none
  | 24 =>
    if w < 2 ^ 24 then
      some (.message (BitVec.ofNat 8 (w / 2 ^ 16)) (BitVec.ofNat 8 (w / 2 ^ 8)) (BitVec.ofNat 8 w))
    else none
  | _ => none

/-- The decoder position at which a table word is read: DECODE in `DECODE_STATUS`, anything else where the decoder stands
after reset, `SEEK_STATUS` (assumption 19). -/
def tablePosition (e : Input) : DecState := if e = .strobe .internal then .decodeStatus else .seekStatus

/-- The instruction the decoder reads from a table word, on the serviced channel of `Config.cfgA`, which `State.reset`
carries (assumption 19). -/
def decodeTableWord (nbits w : Nat) : Option Instr :=
  match tableInput nbits w with
  | none => none
  | some e =>
    match decodeInput (tablePosition e) Config.cfgA.midiChannel e with
    | .ok i => some i
    | .error _ => none

end Sys2Proof
end

