-- ==== Sys2Proof/Machine/Tables.lean ====
section
/-! DEFINITION. The fixed constants (00_scope.md R16), the reserved codes, the two ROMs (20_memory.md R50, R51;
40_tables.md R101, R104) and the constraints a configuration meets (00_scope.md R6 to R15). -/

namespace Sys2Proof.Machine

/-! ## Constants -/

/-- `NONE`, the currentKey of an unassigned voice (10_state.md R23). -/
def noneKey : Byte := 0xFF#8

/-- `BIAS` (00_scope.md R16). -/
def bias : Byte := 0x80#8

/-- `FREE`, the all-ones age of an unassigned voice (00_scope.md R14). -/
def freeAge (cfg : Config) : Nat := 2 ^ cfg.W - 1

/-- `AGE_MAX`, the largest age of an assigned voice (00_scope.md R14). -/
def ageMax (cfg : Config) : Nat := 2 ^ cfg.W - 2

/-- The width of `numActive`: the least `w` with `2^w > N` (00_scope.md R6). -/
def activeWidth (cfg : Config) : Nat := Nat.log2 cfg.N + 1

/-! ## ROMs -/

/-- The wavetable `WAV[0..255]`, in the rows of 40_tables.md R101. -/
def wav : List Int :=
  [   0,    3,    6,    9,   12,   16,   19,   22,   25,   28,   31,   34,   37,   40,   43,   46] ++
  [  49,   51,   54,   57,   60,   63,   65,   68,   71,   73,   76,   78,   81,   83,   85,   88] ++
  [  90,   92,   94,   96,   98,  100,  102,  104,  106,  107,  109,  111,  112,  113,  115,  116] ++
  [ 117,  118,  120,  121,  122,  122,  123,  124,  125,  125,  126,  126,  126,  127,  127,  127] ++
  [ 127,  127,  127,  127,  126,  126,  126,  125,  125,  124,  123,  122,  122,  121,  120,  118] ++
  [ 117,  116,  115,  113,  112,  111,  109,  107,  106,  104,  102,  100,   98,   96,   94,   92] ++
  [  90,   88,   85,   83,   81,   78,   76,   73,   71,   68,   65,   63,   60,   57,   54,   51] ++
  [  49,   46,   43,   40,   37,   34,   31,   28,   25,   22,   19,   16,   12,    9,    6,    3] ++
  [   0,   -3,   -6,   -9,  -12,  -16,  -19,  -22,  -25,  -28,  -31,  -34,  -37,  -40,  -43,  -46] ++
  [ -49,  -51,  -54,  -57,  -60,  -63,  -65,  -68,  -71,  -73,  -76,  -78,  -81,  -83,  -85,  -88] ++
  [ -90,  -92,  -94,  -96,  -98, -100, -102, -104, -106, -107, -109, -111, -112, -113, -115, -116] ++
  [-117, -118, -120, -121, -122, -122, -123, -124, -125, -125, -126, -126, -126, -127, -127, -127] ++
  [-127, -127, -127, -127, -126, -126, -126, -125, -125, -124, -123, -122, -122, -121, -120, -118] ++
  [-117, -116, -115, -113, -112, -111, -109, -107, -106, -104, -102, -100,  -98,  -96,  -94,  -92] ++
  [ -90,  -88,  -85,  -83,  -81,  -78,  -76,  -73,  -71,  -68,  -65,  -63,  -60,  -57,  -54,  -51] ++
  [ -49,  -46,  -43,  -40,  -37,  -34,  -31,  -28,  -25,  -22,  -19,  -16,  -12,   -9,   -6,   -3]

/-- `MemRead(WAV, a)`, an `s_8` (20_memory.md R50). -/
def readWav (a : Byte) : BitVec 8 := BitVec.ofInt 8 (wav.getD a.toNat 0)

/-- `MemRead(FREQ, s)` (20_memory.md R51, 40_tables.md R104). -/
def readFreq (cfg : Config) (s : Nat) : Nat := cfg.freqTable.getD s 0

/-- `VELOCITY_MAP(v)` (00_scope.md R13). -/
def velocityVolume (cfg : Config) (v : Data7) : Byte := cfg.velocityMap.getD v.toNat 0

/-! ## Which configurations have a meaning -/

/-- Monotone non-decreasing (00_scope.md R13). -/
def monotone : List Byte → Bool
  | [] => true
  | [_] => true
  | a :: b :: rest => decide (a ≤ b) && monotone (b :: rest)

/-- The constraints of 00_scope.md R6 to R15. A configuration that violates one "is refused by the model: it has no
meaning" (10_state.md R36). -/
def configValid (cfg : Config) : Bool :=
  decide (1 ≤ cfg.N) && decide (8 ≤ cfg.P) && decide (9 ≤ cfg.maxOctave)
    && decide (cfg.freqTable.length = 12) && cfg.freqTable.all (fun f => decide (f < 2 ^ cfg.P))
    && decide (cfg.velocityMap.length = 128) && monotone cfg.velocityMap
    && decide (cfg.N + 1 ≤ 2 ^ cfg.W)

end Sys2Proof.Machine
end

