-- ==== Sys2Proof/Machine/State.lean ====
section
/-! DEFINITION. The state of the block as plain data (10_state.md), why a step can stop, and the state after RESET
(70_reset_and_hazards.md R400). -/

namespace Sys2Proof.Machine

/-- The block raises no exception: "No operation of 00_scope.md rule R2 can fault" (60_exceptions.md R300). So there is no
fault reason. -/
inductive Fault where
  deriving DecidableEq, Repr

/-- Why an operation is refused. Every refusal is safe: the machine stops where the spec gives no transition. -/
inductive Refusal where
  /-- Raised by an arm of `exec` whose instruction has no meaning yet. Safe. No arm raises it. -/
  | notModelled (mnemonic : String)
  /-- Raised by every operation under a configuration outside 00_scope.md R6 to R15, which "is refused by the model: it
  has no meaning" (10_state.md R36). Safe. -/
  | invalidConfiguration
  /-- Raised by every operation but RESET before the first RESET: "the model gives no meaning to operations before the
  first `RESET`" (70_reset_and_hazards.md R403). Safe. -/
  | beforeReset
  /-- Raised by a decoder row (RX_BYTE.x, DECODE) run at a decoder position where the table of 45_midi_decoder.md does not
  enable it. Safe. `step` never raises it: it decodes by the position (assumption 6). -/
  | notEnabled
  /-- Raised by CMD_NOTE_ON, from the port or dispatched, where the voice its rule calls existing does not exist. Only a
  state that violates the invariants of 10_state.md R32 does so, and such a state "is not reachable". Safe
  (assumption 8). -/
  | invariantBroken
  deriving DecidableEq, Repr

/-- One entry of the voice register file (10_state.md R21 to R28), with the model-only latches of R38. -/
structure Voice where
  /-- `u_P`, below `2^P` (R22). -/
  phase : Nat
  /-- `u_P`, below `2^P` (R24). -/
  increment : Nat
  /-- A key `0..127`, or `NONE` (R23). -/
  currentKey : Byte
  /-- R25. -/
  targetVolume : Byte
  /-- The stored `smoothedVolume` (R26). Under `POLICY = NONE` it is no register: read it through
  `Voice.smoothedVolume`. -/
  smoothed : Byte
  /-- `u_W`, below `2^W` (R27). -/
  age : Nat
  /-- The output register (R28). -/
  duty : Byte
  /-- `torn[i]` (R38, 60_exceptions.md R306). -/
  torn : Bool
  /-- `tornT[i]` (R38, 60_exceptions.md R306). -/
  tornT : Byte
  deriving DecidableEq, Repr

/-- The decoder registers (10_state.md R33, R34). -/
structure Decoder where
  state : DecState
  status : Byte
  kind : Kind
  key : Byte
  deriving DecidableEq, Repr

structure State where
  /-- The configuration registers (10_state.md R36); no operation writes them. -/
  cfg : Config
  /-- `V[0..N-1]` (R21). -/
  voices : List Voice
  /-- `ET[0..127]` (R30). -/
  et : BitVec 128
  /-- `numActive` (R31), below `2 ^ activeWidth`. -/
  numActive : Nat
  /-- `dec.*` (R33, R34). -/
  dec : Decoder
  /-- The model's own: whether a RESET has been performed (70_reset_and_hazards.md R403; assumption 9). -/
  booted : Bool
  /-- The model's own: the number of the next free value (60_exceptions.md R306; assumption 11). -/
  draws : Nat
  /-- The model's own: the `Duty(i, d)` outputs so far, oldest first (70_reset_and_hazards.md R409; assumption 12). -/
  emitted : List Emission
  /-- The model's own: the inputs the environment has still to deliver, next one first (10_state.md R39; assumption 2). -/
  schedule : List Input
  deriving DecidableEq, Repr

/-- The reset values of one voice (70_reset_and_hazards.md R400). -/
def Voice.reset (cfg : Config) : Voice where
  phase := 0
  increment := 0
  currentKey := noneKey
  targetVolume := 0
  smoothed := 0
  age := freeAge cfg
  duty := bias
  torn := false
  tornT := 0

/-- The reset values of the decoder (70_reset_and_hazards.md R400). -/
def Decoder.reset : Decoder where
  state := .seekStatus
  status := 0
  kind := .ignore
  key := 0

/-- The state right after the RESET of a block configured as `cfg`, with no input yet scheduled. -/
def State.resetWith (cfg : Config) : State where
  cfg := cfg
  voices := List.replicate cfg.N (Voice.reset cfg)
  et := 0
  numActive := 0
  dec := Decoder.reset
  booted := true
  draws := 0
  emitted := []
  schedule := []

/-- The state right after RESET, on the configuration CFG-A (DESIGN CHOICE, assumption 1). -/
def State.reset : State := State.resetWith Config.cfgA

end Sys2Proof.Machine
end

