-- ==== Sys2Proof/Machine/Operands.lean ====
section
/-! DEFINITION. Operand forms: how a voice's registers are read, the key byte, the two lookups `wav_lookup` and `inc`
(40_tables.md), and the draws of a torn read (60_exceptions.md R306). -/

namespace Sys2Proof.Machine

/-- A key operand as `currentKey` stores it (44_voice_allocator.md R190, 10_state.md R23). -/
def keyByte (key : Data7) : Byte := dataByte key

/-- The high-order byte `phase[P-1:P-8]` (40_tables.md R102). -/
def phaseIndex (P phase : Nat) : Byte := BitVec.ofNat 8 (phase / 2 ^ (P - 8))

/-- `wav_lookup` (40_tables.md R102). -/
def wavLookup (P phase : Nat) : BitVec 8 := readWav (phaseIndex P phase)

/-- The per-key table `(octave, sh)` that `OCTAVE_LOOKUP` puts in place of the division (40_tables.md R107). -/
def octaveTable (cfg : Config) : List (Nat × Nat) :=
  (List.range 128).map fun key => (key / 12, cfg.maxOctave + 1 - key / 12)

/-- `(octave, sh)` of a key: by division (40_tables.md R106), or from the table (R107). -/
def octaveShift (cfg : Config) (key : Data7) : Nat × Nat :=
  if cfg.octaveLookup then (octaveTable cfg).getD key.toNat (0, 0)
  else (key.toNat / 12, cfg.maxOctave + 1 - key.toNat / 12)

/-- `inc(key)` (40_tables.md R106). The semitone is the key less twelve times its octave (R105). -/
def inc (cfg : Config) (key : Data7) : Nat :=
  readFreq cfg (key.toNat - 12 * (octaveShift cfg key).1) >>> (octaveShift cfg key).2

/-- A read of `V[i].smoothedVolume`: under `POLICY = NONE` an alias of `targetVolume` (10_state.md R26). -/
def Voice.smoothedVolume (cfg : Config) (v : Voice) : Byte :=
  if cfg.policy = .none then v.targetVolume else v.smoothed

/-- Whether the tick reads voice `v` torn (60_exceptions.md R306). -/
def readsTorn (cfg : Config) (v : Voice) : Bool := !cfg.atomicAssign && v.torn

/-- `tick_increment(i)` (41_phase_accumulator.md R124): the stored increment, or any `P`-bit value on a torn read
(60_exceptions.md R306). -/
def tickIncrement (cfg : Config) (draw i : Nat) (v : Voice) : Nat :=
  if readsTorn cfg v then freeIncrement draw i % 2 ^ cfg.P else v.increment

/-- The target the tick reads: the stored one, or on a torn read the old one or the stored one (60_exceptions.md R306). -/
def tickTarget (cfg : Config) (draw i : Nat) (v : Voice) : Byte :=
  if readsTorn cfg v && freeReadsOldTarget draw i then v.tornT else v.targetVolume

end Sys2Proof.Machine
end

