-- ==== Sys2Proof/Machine/Flags.lean ====
section
/-! DEFINITION. The block's one flag, the zero-crossing flag `zc_i` (10_state.md R35). It is not stored: the phase add of a
TICK computes it and the smoother of the same TICK reads it. -/

namespace Sys2Proof.Machine

/-- `zc_i`: the carry out of the `P`-bit addition (41_phase_accumulator.md R120, R122). -/
def zeroCrossing (P phase increment : Nat) : Bool := decide (2 ^ P ≤ phase + increment)

/-- The sum without its carry (41_phase_accumulator.md R120). -/
def phaseSum (P phase increment : Nat) : Nat := (phase + increment) % 2 ^ P

end Sys2Proof.Machine
end

