-- ==== Sys2Proof/Machine/Ops.lean ====
section
/-! DEFINITION. The operations the meanings share. There is none for taking an exception or returning from one: the block
raises no exception, and its one interrupt, TICK, saves nothing and has no return step (60_exceptions.md R300, R305). -/

namespace Sys2Proof.Machine

abbrev Result := Host.Outcome State Fault Refusal

/-- Go on with the next state; a stop stops. -/
def andThen (r : Result) (f : State → Result) : Result :=
  match r with
  | .next s => f s
  | .fault e => .fault e
  | .refused e => .refused e

/-- An operation has a meaning under a valid configuration (10_state.md R36) and after the first RESET
(70_reset_and_hazards.md R403). -/
def whenReady (s : State) (r : Result) : Result :=
  if configValid s.cfg then (if s.booted then r else .refused .beforeReset) else .refused .invalidConfiguration

/-- A decoder operation is enabled at one position (45_midi_decoder.md, table of enabled operations). -/
def whenAt (st : DecState) (s : State) (r : Result) : Result :=
  if s.dec.state = st then r else .refused .notEnabled

/-! ## Register writes -/

def State.withVoices (s : State) (vs : List Voice) : State := { s with voices := vs }

def State.withEt (s : State) (et : BitVec 128) : State := { s with et := et }

/-- A write of `numActive` keeps the register's width (10_state.md R31, 20_memory.md R55). -/
def State.withNumActive (s : State) (n : Nat) : State := { s with numActive := n % 2 ^ activeWidth s.cfg }

def State.withDec (s : State) (d : Decoder) : State := { s with dec := d }

def State.withSchedule (s : State) (es : List Input) : State := { s with schedule := es }

/-- `V[i] <- v`. -/
def State.withVoice (s : State) (i : Nat) (v : Voice) : State := s.withVoices (s.voices.set i v)

/-! ## EnabledTones (10_state.md R30) -/

/-- `ET[k] <- 1`. -/
def setTone (et : BitVec 128) (k : Nat) : BitVec 128 := et ||| BitVec.twoPow 128 k

/-- `ET[k] <- 0`. -/
def clearTone (et : BitVec 128) (k : Nat) : BitVec 128 := et &&& ~~~(BitVec.twoPow 128 k)

/-- `ET[key] = 1`. -/
def State.sounds (s : State) (key : Data7) : Bool := s.et.getLsbD key.toNat

/-! ## Scans of the voice register file -/

/-- The index of the voice that holds `key` (44_voice_allocator.md R185, R196); unique by INV1. -/
def findKey (key : Data7) (vs : List Voice) : Option Nat := vs.findIdx? fun v => v.currentKey == keyByte key

/-- The lowest index of a free voice (44_voice_allocator.md R186). -/
def findFree (cfg : Config) (vs : List Voice) : Option Nat := vs.findIdx? fun v => v.age == freeAge cfg

/-- The rest of the steal scan, from index `j` on, with the candidate `best` of age `bestAge`
(44_voice_allocator.md R189). -/
def stealFrom : List Voice → Nat → Nat → Nat → Nat
  | [], _, best, _ => best
  | v :: vs, j, best, bestAge =>
    if v.age > bestAge then stealFrom vs (j + 1) j v.age else stealFrom vs (j + 1) best bestAge

/-- `steal_scan()`: voice 0 is the first candidate, a strictly greater age replaces it (44_voice_allocator.md R189). -/
def stealScan : List Voice → Nat
  | [] => 0
  | v :: vs => stealFrom vs 1 0 v.age

/-- `age_bump(except = i)` (44_voice_allocator.md R187). -/
def ageBump (cfg : Config) (i : Nat) (vs : List Voice) : List Voice :=
  vs.mapIdx fun j v =>
    if j = i ∨ v.age = freeAge cfg then v else { v with age := min (v.age + 1) (ageMax cfg) }

end Sys2Proof.Machine
end

