-- ==== Sys2Proof/Machine/Control.lean ====
section
/-! DEFINITION. RESET (70_reset_and_hazards.md R400). -/

namespace Sys2Proof.Machine

/-- Every register of the block at its reset value. The configuration is not written (10_state.md R36); the environment's
schedule, the outputs already emitted and the numbering of free values are not the block's (assumption 18). -/
def resetState (s : State) : State :=
  { State.resetWith s.cfg with draws := s.draws, emitted := s.emitted, schedule := s.schedule }

/-- RESET (70_reset_and_hazards.md R400), the one operation that needs no RESET before it (R403). -/
def execReset (s : State) : Result :=
  if configValid s.cfg then .next (resetState s) else .refused .invalidConfiguration

end Sys2Proof.Machine
end

