-- ==== Sys2Proof/Machine/Allocator.lean ====
section
/-! DEFINITION. The voice allocator: CMD_NOTE_ON and CMD_NOTE_OFF (44_voice_allocator.md). -/

namespace Sys2Proof.Machine

/-- The voice registers `assign` writes, and under `ATOMIC_ASSIGN = false` the record of a torn write
(44_voice_allocator.md R190, 60_exceptions.md R306). -/
def assignVoice (cfg : Config) (key vel : Data7) (v : Voice) : Voice :=
  { v with
    increment := inc cfg key
    currentKey := keyByte key
    age := 0
    targetVolume := velocityVolume cfg vel
    torn := if cfg.atomicAssign then v.torn else true
    tornT := if cfg.atomicAssign then v.tornT else v.targetVolume }

/-- `ET` after `assign`: the bit of the voice's previous key is cleared, then the bit of `key` is set
(44_voice_allocator.md R190). -/
def assignTones (et : BitVec 128) (key : Data7) (v : Voice) : BitVec 128 :=
  setTone (if v.currentKey = noneKey then et else clearTone et v.currentKey.toNat) key.toNat

/-- `assign(i, key, velocity)` (44_voice_allocator.md R190). -/
def assign (i : Nat) (key vel : Data7) (s : State) : Result :=
  match s.voices[i]? with
  | none => .refused .invariantBroken
  | some v => .next ((s.withVoice i (assignVoice s.cfg key vel v)).withEt (assignTones s.et key v))

/-- `age_bump(except = i)` on the state (44_voice_allocator.md R187). -/
def bumpOthers (i : Nat) (s : State) : State := s.withVoices (ageBump s.cfg i s.voices)

/-- Branch 1, retrigger (44_voice_allocator.md R185). -/
def retrigger (key vel : Data7) (s : State) : Result :=
  match findKey key s.voices with
  | none => .refused .invariantBroken
  | some i => assign i key vel s

/-- Branch 2, free slot (44_voice_allocator.md R186). -/
def takeFree (key vel : Data7) (s : State) : Result :=
  match findFree s.cfg s.voices with
  | none => .refused .invariantBroken
  | some i => andThen (assign i key vel s) fun t => .next (bumpOthers i (t.withNumActive (t.numActive + 1)))

/-- Branch 3, steal (44_voice_allocator.md R188). -/
def steal (key vel : Data7) (s : State) : Result :=
  andThen (assign (stealScan s.voices) key vel s) fun t => .next (bumpOthers (stealScan s.voices) t)

/-- `CMD_NOTE_ON(key, velocity)` (44_voice_allocator.md R180). -/
def noteOn (key vel : Data7) (s : State) : Result :=
  if s.sounds key then retrigger key vel s
  else if s.numActive < s.cfg.N then takeFree key vel s
  else steal key vel s

/-- The voice registers noteOff writes (44_voice_allocator.md R196). -/
def releaseVoice (cfg : Config) (v : Voice) : Voice :=
  { v with currentKey := noneKey, age := freeAge cfg, targetVolume := 0 }

/-- The state after noteOff released voice `i`, which held `v` (44_voice_allocator.md R196). The decrement keeps the width of
`numActive`. -/
def release (i : Nat) (key : Data7) (v : Voice) (s : State) : State :=
  ((s.withVoice i (releaseVoice s.cfg v)).withEt (clearTone s.et key.toNat)).withNumActive
    (s.numActive + (2 ^ activeWidth s.cfg - 1))

/-- The state after `CMD_NOTE_OFF(key, velocity)` (44_voice_allocator.md R196): nothing changes if no voice holds `key`. -/
def noteOffState (key : Data7) (s : State) : State :=
  match findKey key s.voices with
  | none => s
  | some i =>
    match s.voices[i]? with
    | none => s
    | some v => release i key v s

/-- `CMD_NOTE_OFF(key, velocity)`; the velocity is ignored (44_voice_allocator.md R196). -/
def noteOff (key _vel : Data7) (s : State) : Result := .next (noteOffState key s)

/-- CMD_NOTE_ON from the command port; velocity 0 is no noteOff here (44_voice_allocator.md R180, R191). -/
def execCmdNoteOn (k v : Data7) (s : State) : Result := whenReady s (noteOn k v s)

/-- CMD_NOTE_OFF from the command port (44_voice_allocator.md R196). -/
def execCmdNoteOff (k v : Data7) (s : State) : Result := whenReady s (noteOff k v s)

end Sys2Proof.Machine
end

