-- ==== Sys2Proof/Machine/MidiDecoder.lean ====
section
/-! DEFINITION. The MIDI byte decoder: RX_BYTE in each position, and DECODE (45_midi_decoder.md). -/

namespace Sys2Proof.Machine

/-- A status byte is latched (45_midi_decoder.md R221). -/
def latchStatus (b : Byte) (s : State) : State :=
  s.withDec { s.dec with status := b, state := .decodeStatus }

/-- DECODE's effect (45_midi_decoder.md R222). -/
def decodeLatched (s : State) : State :=
  s.withDec { s.dec with kind := kindOf s.cfg.midiChannel s.dec.status, state := .readParam1 }

/-- The first parameter is latched, bit 7 included (45_midi_decoder.md R223). -/
def latchKey (b : Byte) (s : State) : State :=
  s.withDec { s.dec with key := b, state := .readParam2 }

/-- The decoder is back at `SEEK_STATUS`; its latches keep their values (45_midi_decoder.md R224). -/
def endMessage (s : State) : State := s.withDec { s.dec with state := .seekStatus }

/-- The command a message dispatches, on its kind and its two parameter bytes (45_midi_decoder.md R224). -/
def dispatch (kind : Kind) (k v : Byte) (s : State) : Result :=
  if isStatusByte k || isStatusByte v then .next s
  else
    match kind with
    | .off => noteOff (low7 k) (low7 v) s
    | .on => if v = 0 then noteOff (low7 k) 0 s else noteOn (low7 k) (low7 v) s
    | .ignore => .next s

/-- RX_BYTE in `READ_PARAM2`, with dispatch (45_midi_decoder.md R224). -/
def finishMessage (b : Byte) (s : State) : Result := dispatch s.dec.kind s.dec.key b (endMessage s)

/-- RX_BYTE.SEEK_DATA: the byte is discarded (45_midi_decoder.md R220). -/
def execRxSeekData (_d : Data7) (s : State) : Result := whenReady s (whenAt .seekStatus s (.next s))

/-- RX_BYTE.SEEK_STATUS (45_midi_decoder.md R221). -/
def execRxSeekStatus (c : Cmd) (h : Channel) (s : State) : Result :=
  whenReady s (whenAt .seekStatus s (.next (latchStatus (statusByte c h) s)))

/-- DECODE (45_midi_decoder.md R222). -/
def execDecode (s : State) : Result := whenReady s (whenAt .decodeStatus s (.next (decodeLatched s)))

/-- RX_BYTE.PARAM1 (45_midi_decoder.md R223). -/
def execRxParam1 (k : Byte) (s : State) : Result := whenReady s (whenAt .readParam1 s (.next (latchKey k s)))

/-- RX_BYTE.PARAM2 (45_midi_decoder.md R224). -/
def execRxParam2 (v : Byte) (s : State) : Result := whenReady s (whenAt .readParam2 s (finishMessage v s))

end Sys2Proof.Machine
end

