-- ==== Sys2Proof/Machine/Message.lean ====
section
/-! DEFINITION. Whole messages: `MSG c, k, v = RX c; RX k; RX v`, with a DECODE after a byte that leaves the decoder in
`DECODE_STATUS` (30_encoding.md R81). The transitions run in a row, with no TICK between them (assumption 4). -/

namespace Sys2Proof.Machine

/-- A pending DECODE is taken: it is the one foreground operation enabled in `DECODE_STATUS` (45_midi_decoder.md R222). -/
def settle (s : State) : State := if s.dec.state = .decodeStatus then decodeLatched s else s

/-- `RX_BYTE(b)` at the decoder's position (45_midi_decoder.md R220, R221, R223, R224). -/
def rxByte (b : Byte) (s : State) : Result :=
  match s.dec.state with
  | .seekStatus => .next (if isStatusByte b then latchStatus b s else s)
  | .decodeStatus => .refused .notEnabled
  | .readParam1 => .next (latchKey b s)
  | .readParam2 => finishMessage b s

/-- `RX b` of 30_encoding.md R81: the byte, once DECODE has run if it is pending, and the DECODE that follows it. -/
def receive (b : Byte) (s : State) : Result := andThen (rxByte b (settle s)) fun t => .next (settle t)

/-- `MSG c, k, v` (30_encoding.md R81). -/
def receiveMessage (c k v : Byte) (s : State) : Result :=
  whenReady s (andThen (receive c s) fun t => andThen (receive k t) fun u => receive v u)

/-- MSG.NOTE_OFF (45_midi_decoder.md R224). -/
def execMsgNoteOff (h : Channel) (k v : Data7) (s : State) : Result :=
  receiveMessage (statusByte 0#3 h) (dataByte k) (dataByte v) s

/-- MSG.NOTE_ON (45_midi_decoder.md R224). -/
def execMsgNoteOn (h : Channel) (k v : Data7) (s : State) : Result :=
  receiveMessage (statusByte 1#3 h) (dataByte k) (dataByte v) s

/-- MSG.NOTE_ON_V0 (45_midi_decoder.md R229). -/
def execMsgNoteOnV0 (h : Channel) (k : Data7) (s : State) : Result :=
  receiveMessage (statusByte 1#3 h) (dataByte k) 0#8 s

/-- MSG.NOT_SERVICED (45_midi_decoder.md R228). -/
def execMsgNotServiced (c : Cmd) (h : Channel) (k v : Byte) (s : State) : Result :=
  receiveMessage (statusByte c h) k v s

/-- MSG.KEY_BIT7 (30_encoding.md R75). -/
def execMsgKeyBit7 (c : Cmd) (h : Channel) (k : Data7) (v : Byte) (s : State) : Result :=
  receiveMessage (statusByte c h) (markedByte k) v s

/-- MSG.VEL_BIT7 (30_encoding.md R75). -/
def execMsgVelBit7 (c : Cmd) (h : Channel) (k : Byte) (v : Data7) (s : State) : Result :=
  receiveMessage (statusByte c h) k (markedByte v) s

/-- MSG.IGNORED_A (45_midi_decoder.md R224). -/
def execMsgIgnoredA (h : Channel) (k v : Byte) (s : State) : Result := receiveMessage (statusByte 2#3 h) k v s

/-- MSG.IGNORED_B (45_midi_decoder.md R224). -/
def execMsgIgnoredB (h : Channel) (k v : Byte) (s : State) : Result := receiveMessage (statusByte 3#3 h) k v s

/-- MSG.IGNORED_C (45_midi_decoder.md R224). -/
def execMsgIgnoredC (h : Channel) (k v : Byte) (s : State) : Result := receiveMessage (statusByte 4#3 h) k v s

/-- MSG.IGNORED_D (45_midi_decoder.md R224). -/
def execMsgIgnoredD (h : Channel) (k v : Byte) (s : State) : Result := receiveMessage (statusByte 5#3 h) k v s

/-- MSG.IGNORED_E (45_midi_decoder.md R224). -/
def execMsgIgnoredE (h : Channel) (k v : Byte) (s : State) : Result := receiveMessage (statusByte 6#3 h) k v s

/-- MSG.IGNORED_F (45_midi_decoder.md R224). -/
def execMsgIgnoredF (h : Channel) (k v : Byte) (s : State) : Result := receiveMessage (statusByte 7#3 h) k v s

end Sys2Proof.Machine
end

