-- ==== Sys2Proof/Machine/Oscillator.lean ====
section
/-! DEFINITION. TICK: phase accumulator, envelope smoother, duty generator (41, 42, 43). -/

namespace Sys2Proof.Machine

/-- Step 2, the smoother, on the old smoothed volume `S` and the target `T` (42_envelope_smoother.md R140 to R143).
Under `NONE` nothing is written. -/
def smooth (policy : Policy) (zc : Bool) (T S : Byte) : Byte :=
  match policy with
  | .none => S
  | .transition => if zc then (if S < T then S + 1 else if T < S then S - 1 else S) else S
  | .waitNewPhase => if zc then T else S

/-- The duty value of a volume and a sample (43_pwm_duty_gen.md R160): an unsigned times signed product of 16 bits, an
arithmetic shift right by 8, and the low byte rebiased. -/
def dutyOf (vol : Byte) (sample : BitVec 8) : Byte :=
  bias ^^^ ((vol.zeroExtend 16 * sample.signExtend 16).sshiftRight 8).truncate 8

/-- The three steps of one voice, on the increment `I` and the target `T` the tick reads
(41_phase_accumulator.md R123). -/
def stepVoice (cfg : Config) (I : Nat) (T : Byte) (v : Voice) : Voice :=
  let phase := phaseSum cfg.P v.phase I
  let smoothed := smooth cfg.policy (zeroCrossing cfg.P v.phase I) T v.smoothed
  let vol := if cfg.policy = .none then T else smoothed
  { v with phase := phase, smoothed := smoothed, duty := dutyOf vol (wavLookup cfg.P phase) }

/-- One voice of a TICK: what it reads (60_exceptions.md R306), its three steps, and the clearing of `torn[i]`. -/
def tickVoice (cfg : Config) (draw i : Nat) (v : Voice) : Voice :=
  { stepVoice cfg (tickIncrement cfg draw i v) (tickTarget cfg draw i v) v with
    torn := v.torn && !readsTorn cfg v }

/-- Every voice of the bank, in ascending order, whether or not it is assigned (41_phase_accumulator.md R121). -/
def tickVoices (cfg : Config) (draw : Nat) (vs : List Voice) : List Voice :=
  vs.mapIdx fun i v => tickVoice cfg draw i v

/-- The duty outputs of one TICK, one for each voice in ascending order (43_pwm_duty_gen.md R163). -/
def emissions (vs : List Voice) : List Emission := vs.mapIdx fun i v => ⟨i, v.duty⟩

/-- The state a TICK leaves. -/
def tickState (s : State) : State :=
  let vs := tickVoices s.cfg s.draws s.voices
  { s with voices := vs, draws := s.draws + 1, emitted := s.emitted ++ emissions vs }

/-- TICK (41_phase_accumulator.md R123). -/
def execTick (s : State) : Result := whenReady s (.next (tickState s))

end Sys2Proof.Machine
end

