-- ==== Sys2Proof/Machine/Dispatch.lean ====
section
/-! DEFINITION. One arm per constructor of Instr. -/

namespace Sys2Proof.Machine

def exec (i : Instr) (s : State) : Host.Outcome State Fault Refusal :=
  match i with
  | .rxSeekData d => Sys2Proof.Machine.execRxSeekData d s
  | .rxSeekStatus c h => Sys2Proof.Machine.execRxSeekStatus c h s
  | .decode => Sys2Proof.Machine.execDecode s
  | .rxParam1 k => Sys2Proof.Machine.execRxParam1 k s
  | .rxParam2 v => Sys2Proof.Machine.execRxParam2 v s
  | .msgNoteOff h k v => Sys2Proof.Machine.execMsgNoteOff h k v s
  | .msgNoteOn h k v => Sys2Proof.Machine.execMsgNoteOn h k v s
  | .msgNoteOnV0 h k => Sys2Proof.Machine.execMsgNoteOnV0 h k s
  | .msgNotServiced c h k v => Sys2Proof.Machine.execMsgNotServiced c h k v s
  | .msgKeyBit7 c h k v => Sys2Proof.Machine.execMsgKeyBit7 c h k v s
  | .msgVelBit7 c h k v => Sys2Proof.Machine.execMsgVelBit7 c h k v s
  | .msgIgnoredA h k v => Sys2Proof.Machine.execMsgIgnoredA h k v s
  | .msgIgnoredB h k v => Sys2Proof.Machine.execMsgIgnoredB h k v s
  | .msgIgnoredC h k v => Sys2Proof.Machine.execMsgIgnoredC h k v s
  | .msgIgnoredD h k v => Sys2Proof.Machine.execMsgIgnoredD h k v s
  | .msgIgnoredE h k v => Sys2Proof.Machine.execMsgIgnoredE h k v s
  | .msgIgnoredF h k v => Sys2Proof.Machine.execMsgIgnoredF h k v s
  | .cmdNoteOn k v => Sys2Proof.Machine.execCmdNoteOn k v s
  | .cmdNoteOff k v => Sys2Proof.Machine.execCmdNoteOff k v s
  | .tick => Sys2Proof.Machine.execTick s
  | .reset => Sys2Proof.Machine.execReset s

end Sys2Proof.Machine
end

