-- ==== Sys2Proof/Machine/Fetch.lean ====
section
/-! DEFINITION. Which operation comes next. The block fetches nothing from a store (20_memory.md R54): the environment
presents inputs in one order (R59), the schedule, and the decoder's position says what a byte is. -/

namespace Sys2Proof.Machine

/-- The next operation, if any, and the state it runs in.
With no input left, a pending DECODE runs, else the block waits (45_midi_decoder.md R222, R225).
A byte that comes in `DECODE_STATUS` is kept, and DECODE runs (R222).
Three bytes that are no message are presented one at a time (30_encoding.md R81). -/
def nextOperation (s : State) : Option Instr × State :=
  match s.schedule with
  | [] => if s.booted && s.dec.state == .decodeStatus then (some .decode, s) else (none, s)
  | e :: rest =>
    match decodeInput s.dec.state s.cfg.midiChannel e with
    | .ok i => (some i, s.withSchedule rest)
    | .error .byteHeld => (some .decode, s)
    | .error .noInternalStep => (none, s.withSchedule rest)
    | .error .noMessage =>
      match e with
      | .message b k v => (none, s.withSchedule (.byte b :: .byte k :: .byte v :: rest))
      | .strobe _ => (none, s.withSchedule rest)
      | .byte _ => (none, s.withSchedule rest)
      | .port _ => (none, s.withSchedule rest)

/-- The input `e` presented next, at the decoder position that makes it the table's row (assumption 19). -/
def present (s : State) (e : Input) : State :=
  let t := s.withSchedule (e :: s.schedule)
  match e with
  | .byte _ => t.withDec { t.dec with state := tablePosition e }
  | .strobe .internal => t.withDec { t.dec with state := tablePosition e }
  | .strobe .tick => t
  | .strobe .reset => t
  | .port _ => t
  | .message _ _ _ => t

end Sys2Proof.Machine
end

