-- ==== Sys2Proof/Machine/Step.lean ====
section
/-! DEFINITION. One step of the block. -/

namespace Sys2Proof.Machine

/-- One step: the next operation of the total order (20_memory.md R59), or waiting for an input
(45_midi_decoder.md R225). A configuration without a meaning is refused (10_state.md R36). -/
def step (s : State) : Host.Outcome State Fault Refusal :=
  if configValid s.cfg then
    match nextOperation s with
    | (some i, t) => exec i t
    | (none, t) => .next t
  else .refused .invalidConfiguration

/-- `s` with a word of spec/opcode_table.json presented as its next input (assumption 19). A number that is no word of the
table leaves `s` as it is. -/
def State.withFetchWord (s : State) (nbits w : Nat) : State :=
  match tableInput nbits w with
  | none => s
  | some e => present s e

end Sys2Proof.Machine
end

