-- ==== Sys2Proof/Safety.lean ====
section
/-! DEFINITION. The terms claims use: a state an operation has a meaning in, the invariants of 10_state.md R32, the states a
run reaches, the two agents' parts of a voice (10_state.md R29), and runs of ticks. -/

namespace Sys2Proof.Machine

/-- A valid configuration (10_state.md R36) and a RESET performed (70_reset_and_hazards.md R403). -/
def State.Ready (s : State) : Prop := configValid s.cfg = true ∧ s.booted = true

/-- The voice holds a key: "assigned voice" of the glossary of 00_scope.md. -/
def Voice.assigned (v : Voice) : Bool := v.currentKey != noneKey

/-- What holds in every state reachable from RESET: INV1 to INV5 of 10_state.md R32, the widths of R22 to R27, and what
R24 with 44_voice_allocator.md R190, and R38, imply. -/
structure State.Inv (s : State) : Prop where
  /-- The register file has `N` entries (R21). -/
  voiceCount : s.voices.length = s.cfg.N
  /-- `phase` and `increment` are `u_P` (R22, R24). -/
  phaseWidth : ∀ v ∈ s.voices, v.phase < 2 ^ s.cfg.P ∧ v.increment < 2 ^ s.cfg.P
  /-- "The values 0x80 to 0xFE are never written" (R23). -/
  keyRange : ∀ v ∈ s.voices, v.currentKey = noneKey ∨ v.currentKey.msb = false
  /-- INV1. -/
  inv1 : s.voices.Pairwise fun a b => a.currentKey = b.currentKey → a.currentKey = noneKey
  /-- INV2. -/
  inv2 : ∀ key : Data7, s.sounds key = true ↔ ∃ v ∈ s.voices, v.currentKey = keyByte key
  /-- INV3. -/
  inv3 : s.numActive = s.voices.countP Voice.assigned ∧ s.numActive ≤ s.cfg.N
  /-- INV4. -/
  inv4 : ∀ v ∈ s.voices, v.age = freeAge s.cfg ↔ v.currentKey = noneKey
  /-- INV5. -/
  inv5 : ∀ v ∈ s.voices, v.assigned = true → v.age ≤ ageMax s.cfg
  /-- An assigned voice's increment is that of its key (R24, 44_voice_allocator.md R190). -/
  pitch : ∀ v ∈ s.voices, v.assigned = true → v.increment = inc s.cfg (low7 v.currentKey)
  /-- "When ATOMIC_ASSIGN = true the two are never written" (R38). -/
  untorn : s.cfg.atomicAssign = true → ∀ v ∈ s.voices, v.torn = false

/-- The states a run reaches: from RESET under a valid configuration, whatever the environment delivers
(70_reset_and_hazards.md R403, R409). -/
inductive Reachable : State → Prop where
  | start (cfg : Config) (inputs : List Input) (valid : configValid cfg = true) :
      Reachable ((State.resetWith cfg).withSchedule inputs)
  | next (s t : State) (reached : Reachable s) (stepped : step s = .next t) : Reachable t

/-- The fields of a voice that the tick agent alone writes (10_state.md R29). -/
def Voice.tickPart (v : Voice) : Nat × Byte × Byte := (v.phase, v.smoothed, v.duty)

/-- The fields of a voice that the foreground agent alone writes (10_state.md R29). -/
def Voice.allocatorPart (v : Voice) : Nat × Byte × Byte × Nat := (v.increment, v.currentKey, v.targetVolume, v.age)

/-- The fields of a voice that a TICK reads (10_state.md R29, 60_exceptions.md R306). -/
def Voice.tickReads (v : Voice) : Nat × Nat × Byte × Byte × Bool × Byte :=
  (v.phase, v.increment, v.smoothed, v.targetVolume, v.torn, v.tornT)

/-- `TICKS n` (30_encoding.md R81). -/
def ticks : Nat → State → Result
  | 0, s => .next s
  | n + 1, s => andThen (ticks n s) (exec .tick)

/-- The `t`-th of a run of ticks from `s`, counted from 1, sets `zc_i` (41_phase_accumulator.md R122). -/
def crossesAtTick (s : State) (i t : Nat) : Prop :=
  1 ≤ t ∧ ∃ u w, ticks (t - 1) s = .next u ∧ u.voices[i]? = some w ∧
    zeroCrossing s.cfg.P w.phase w.increment = true

end Sys2Proof.Machine
end

