-- ==== Sys2Proof/Certificates/Slice0/Obligations.lean ====
section
/-! DEFINITION. The statements for the provers. `[decision Dn]` in a docstring marks what the spec calls its own choice
(92_eei_decisions.md), `[derived]` what it calls a consequence; such a statement is `derived` in OBLIGATIONS.json. -/

open Sys2Proof Sys2Proof.Machine

/-! ## Encoding -/

/-- For every operation, at every operand its row admits, decoding its encoding gives it back. Which row names a word that
several rows match is the model's choice (assumption 5): `canonical`. -/
def Obligations.DecodeOfEncodeIsTheOperation : Prop :=
  ∀ (st : DecState) (ch : Channel) (i : Instr), i.wf ch = true → i.canonical = true → i.enabledAt st = true →
    decodeInput st ch (encode i) = .ok i

/-- The other direction: the decoded operation is the one whose encoding the input is; no bit of an input is dropped, and
the operation meets its row's side conditions and is enabled at the decoder's position. -/
def Obligations.EncodeOfDecodeIsTheInput : Prop :=
  ∀ (st : DecState) (ch : Channel) (e : Input) (i : Instr), decodeInput st ch e = .ok i →
    encode i = e ∧ i.wf ch = true ∧ i.canonical = true ∧ i.enabledAt st = true

/-- Where several rows of the table match a word, the row the decoder names has the same encoding and the same effect as
every other: no row is shut out (assumption 5). -/
def Obligations.OverlappingRowsHaveOneEffect : Prop :=
  ∀ (st : DecState) (ch : Channel) (i : Instr), i.wf ch = true → i.enabledAt st = true →
    ∃ j, decodeInput st ch (encode i) = .ok j ∧ encode j = encode i ∧ ∀ s, exec j s = exec i s

/-- Words written out in 95_test_vectors.md (L1.2, L1.3, L2.5, L2.6, L3.2, L3.3) decode to what they stand for. -/
def Obligations.SpecWordsDecode : Prop :=
  decodeInput .seekStatus 0#4 (.port 0x5E64#15) = .ok (.cmdNoteOn 60#7 100#7) ∧
  decodeInput .seekStatus 0#4 (.port 0x3180#15) = .ok (.cmdNoteOff 99#7 0#7) ∧
  decodeInput .seekStatus 0#4 (.byte 0x3C#8) = .ok (.rxSeekData 0x3C#7) ∧
  decodeInput .seekStatus 0#4 (.byte 0x90#8) = .ok (.rxSeekStatus 1#3 0#4) ∧
  decodeInput .decodeStatus 0#4 (.strobe .internal) = .ok .decode ∧
  decodeInput .readParam1 0#4 (.byte 0x90#8) = .ok (.rxParam1 0x90#8) ∧
  decodeInput .readParam2 0#4 (.byte 0x64#8) = .ok (.rxParam2 0x64#8) ∧
  decodeInput .seekStatus 0#4 (.message 0x90#8 0x3C#8 0x64#8) = .ok (.msgNoteOn 0#4 60#7 100#7) ∧
  decodeInput .seekStatus 0#4 (.message 0x90#8 0x3C#8 0x00#8) = .ok (.msgNoteOnV0 0#4 60#7) ∧
  decodeInput .seekStatus 0#4 (.message 0x91#8 0x3C#8 0x64#8) = .ok (.msgNotServiced 1#3 1#4 0x3C#8 0x64#8) ∧
  decodeInput .seekStatus 0#4 (.message 0x80#8 0x3E#8 0x40#8) = .ok (.msgNoteOff 0#4 62#7 64#7) ∧
  decodeInput .seekStatus 0#4 (.message 0xB0#8 0x07#8 0x7F#8) = .ok (.msgIgnoredB 0#4 0x07#8 0x7F#8) ∧
  decodeInput .seekStatus 0#4 (.message 0x90#8 0x90#8 0x40#8) = .ok (.msgKeyBit7 1#3 0#4 0x10#7 0x40#8) ∧
  decodeInput .seekStatus 0#4 (.strobe .tick) = .ok .tick ∧
  decodeInput .seekStatus 0#4 (.strobe .reset) = .ok .reset

/-! ## The step -/

/-- When the next input decodes to an operation, the step is that operation on the state with the input taken off the
schedule. -/
def Obligations.StepRunsTheDecodedOperation : Prop :=
  ∀ (s : State) (e : Input) (rest : List Input) (i : Instr), configValid s.cfg = true → s.schedule = e :: rest →
    decodeInput s.dec.state s.cfg.midiChannel e = .ok i → step s = exec i { s with schedule := rest }

/-- R222 [decision D24]: "`RX_BYTE` is not enabled in DECODE_STATUS. The environment keeps its next byte until `DECODE` has
run." The step runs DECODE and the byte stays first in the schedule; DECODE runs without an input too. -/
def Obligations.ByteWaitsUntilDecodeHasRun : Prop :=
  ∀ s : State, s.Ready → s.dec.state = .decodeStatus →
    (s.schedule = [] ∨ ∃ b rest, s.schedule = .byte b :: rest) →
    step s = .next { s with dec := { s.dec with
      kind := kindOf s.cfg.midiChannel s.dec.status, state := .readParam1 } }

/-- R225: without an input the block performs nothing at the three positions that wait for a byte. The step that changes
nothing on an empty schedule (assumptions 2 and 3) and the refusal of DECODE there (assumption 6) are the model's form of
that. -/
def Obligations.BlockWaitsForInput : Prop :=
  ∀ s : State, s.Ready → s.schedule = [] →
    s.dec.state = .seekStatus ∨ s.dec.state = .readParam1 ∨ s.dec.state = .readParam2 →
    step s = .next s ∧ exec .decode s = .refused .notEnabled

/-- Three bytes of which the first is no status byte are no message: the step presents them one by one
(30_encoding.md R81; the model's choice, assumption 4). -/
def Obligations.NonMessageIsPresentedByteByByte : Prop :=
  ∀ (s : State) (b k v : Byte) (rest : List Input), configValid s.cfg = true → s.schedule = .message b k v :: rest →
    isStatusByte b = false → step s = .next { s with schedule := .byte b :: .byte k :: .byte v :: rest }

/-! ## Decoder -/

/-- R220: a data byte in SEEK_STATUS is discarded; "no other register changes". -/
def Obligations.SeekStatusDiscardsDataByte : Prop :=
  ∀ (s : State) (d : Data7), s.Ready → s.dec.state = .seekStatus → exec (.rxSeekData d) s = .next s

/-- R221: a status byte in SEEK_STATUS is latched. -/
def Obligations.SeekStatusTakesStatusByte : Prop :=
  ∀ (s : State) (c : Cmd) (h : Channel), s.Ready → s.dec.state = .seekStatus →
    exec (.rxSeekStatus c h) s = .next { s with dec := { s.dec with status := statusByte c h, state := .decodeStatus } }

/-- R222 [decision D24] with R76 [decision D23]: DECODE computes the kind of the latched status byte. -/
def Obligations.DecodeComputesTheKind : Prop :=
  ∀ s : State, s.Ready → s.dec.state = .decodeStatus → ∃ kind, exec .decode s = .next { s with dec := { s.dec with
      kind := kind, state := .readParam1 } } ∧
    (statusChannel s.dec.status ≠ s.cfg.midiChannel → kind = .ignore) ∧
    (statusChannel s.dec.status = s.cfg.midiChannel → statusCmd s.dec.status = 0b000#3 → kind = .off) ∧
    (statusChannel s.dec.status = s.cfg.midiChannel → statusCmd s.dec.status = 0b001#3 → kind = .on) ∧
    (2#3 ≤ statusCmd s.dec.status → kind = .ignore)

/-- R223 [decision D21]: any byte is taken as the first parameter, bit 7 included. -/
def Obligations.ReadParam1TakesAnyByte : Prop :=
  ∀ (s : State) (k : Byte), s.Ready → s.dec.state = .readParam1 →
    exec (.rxParam1 k) s = .next { s with dec := { s.dec with key := k, state := .readParam2 } }

/-- R224: the second parameter ends the message and dispatches by kind and parameter bits 7; the command is that of the
command port, on the state with the decoder back in SEEK_STATUS. -/
def Obligations.ReadParam2Dispatches : Prop :=
  ∀ (s : State) (v : Byte), s.Ready → s.dec.state = .readParam2 →
    let k := s.dec.key
    let s1 : State := { s with dec := { s.dec with state := .seekStatus } }
    ((k.msb = true ∨ v.msb = true) → exec (.rxParam2 v) s = .next s1) ∧
    (k.msb = false → v.msb = false → s.dec.kind = .off → exec (.rxParam2 v) s = exec (.cmdNoteOff (low7 k) (low7 v)) s1) ∧
    (k.msb = false → v = 0 → s.dec.kind = .on → exec (.rxParam2 v) s = exec (.cmdNoteOff (low7 k) 0) s1) ∧
    (k.msb = false → v.msb = false → v ≠ 0 → s.dec.kind = .on →
      exec (.rxParam2 v) s = exec (.cmdNoteOn (low7 k) (low7 v)) s1) ∧
    (s.dec.kind = .ignore → exec (.rxParam2 v) s = .next s1)

/-- RX_BYTE in READ_PARAM2 completes on every byte, whatever it dispatches; the latches keep their values
(R224 corner case c, R202). -/
def Obligations.ReadParam2Completes : Prop :=
  ∀ (s : State) (v : Byte), s.Ready → s.Inv → s.dec.state = .readParam2 → ∃ t : State, exec (.rxParam2 v) s = .next t ∧
    t = { s with voices := t.voices, et := t.et, numActive := t.numActive, dec := { s.dec with state := .seekStatus } } ∧
    t.voices.map Voice.tickPart = s.voices.map Voice.tickPart ∧ t.Inv

/-- A decoder row off the position that enables it has no transition: it is refused by name (table of 45_midi_decoder.md;
assumption 6). -/
def Obligations.DecoderRowsAreRefusedElsewhere : Prop :=
  ∀ s : State, s.Ready →
    (∀ d, s.dec.state ≠ .seekStatus → exec (.rxSeekData d) s = .refused .notEnabled) ∧
    (∀ c h, s.dec.state ≠ .seekStatus → exec (.rxSeekStatus c h) s = .refused .notEnabled) ∧
    (s.dec.state ≠ .decodeStatus → exec .decode s = .refused .notEnabled) ∧
    (∀ k, s.dec.state ≠ .readParam1 → exec (.rxParam1 k) s = .refused .notEnabled) ∧
    (∀ v, s.dec.state ≠ .readParam2 → exec (.rxParam2 v) s = .refused .notEnabled)

/-! ## Allocator -/

/-- R185: a retrigger keeps the voice; target volume and age of that voice alone change. The latches of a torn read are the
spec's own choice (R306, decision D26). -/
def Obligations.RetriggerKeepsTheVoice : Prop :=
  ∀ (s : State) (key vel : Data7), s.Ready → s.Inv → s.sounds key = true →
    ∃ (i : Nat) (v : Voice), s.voices[i]? = some v ∧ v.currentKey = keyByte key ∧ v.increment = inc s.cfg key ∧
      exec (.cmdNoteOn key vel) s = .next { s with voices := s.voices.set i { v with
        targetVolume := velocityVolume s.cfg vel
        age := 0
        torn := !s.cfg.atomicAssign
        tornT := if s.cfg.atomicAssign then v.tornT else v.targetVolume } }

/-- R186 [decisions D16, D43] with R187 [D14] and R190: a new key takes the lowest free voice, every other assigned voice
ages by one and saturates, phase, smoothed volume and duty stay. -/
def Obligations.NewKeyTakesLowestFreeVoice : Prop :=
  ∀ (s : State) (key vel : Data7), s.Ready → s.Inv → s.sounds key = false → s.numActive < s.cfg.N →
    ∃ (i : Nat) (v : Voice) (t : State), s.voices[i]? = some v ∧ v.age = freeAge s.cfg ∧
      (∀ (j : Nat) (w : Voice), j < i → s.voices[j]? = some w → w.age ≠ freeAge s.cfg) ∧
      exec (.cmdNoteOn key vel) s = .next t ∧
      t = { s with voices := t.voices, et := t.et, numActive := s.numActive + 1 } ∧
      (∀ k, t.sounds k = (s.sounds k || decide (k = key))) ∧
      t.voices.length = s.voices.length ∧
      t.voices[i]? = some { v with
        increment := inc s.cfg key
        currentKey := keyByte key
        targetVolume := velocityVolume s.cfg vel
        age := 0
        torn := !s.cfg.atomicAssign
        tornT := if s.cfg.atomicAssign then v.tornT else v.targetVolume } ∧
      ∀ (j : Nat) (w : Voice), j ≠ i → s.voices[j]? = some w →
        t.voices[j]? = some (if w.age = freeAge s.cfg then w else { w with age := min (w.age + 1) (ageMax s.cfg) })

/-- R188: on a full bank a new key takes the voice of the steal scan; the stolen key stops sounding and numActive stays N.
The ages of the others follow R187 [decision D14]; which voice the scan returns is `StealScanReturnsTheOldest`. -/
def Obligations.NewKeyStealsOnFullBank : Prop :=
  ∀ (s : State) (key vel : Data7), s.Ready → s.Inv → s.sounds key = false → s.numActive = s.cfg.N →
    ∃ (v : Voice) (t : State), s.voices[stealScan s.voices]? = some v ∧ v.currentKey ≠ noneKey ∧
      exec (.cmdNoteOn key vel) s = .next t ∧
      t = { s with voices := t.voices, et := t.et } ∧
      (∀ k, t.sounds k = ((s.sounds k && v.currentKey != keyByte k) || decide (k = key))) ∧
      t.voices.length = s.voices.length ∧
      t.voices[stealScan s.voices]? = some { v with
        increment := inc s.cfg key
        currentKey := keyByte key
        targetVolume := velocityVolume s.cfg vel
        age := 0
        torn := !s.cfg.atomicAssign
        tornT := if s.cfg.atomicAssign then v.tornT else v.targetVolume } ∧
      ∀ (j : Nat) (w : Voice), j ≠ stealScan s.voices → s.voices[j]? = some w →
        t.voices[j]? = some { w with age := min (w.age + 1) (ageMax s.cfg) }

/-- R189 [decision D17]: the scan returns "the lowest index among the voices of maximal age". -/
def Obligations.StealScanReturnsTheOldest : Prop :=
  ∀ vs : List Voice, vs ≠ [] → ∃ v, vs[stealScan vs]? = some v ∧
    ∀ (j : Nat) (w : Voice), vs[j]? = some w → w.age ≤ v.age ∧ (j < stealScan vs → w.age < v.age)

/-- R196: a note-off frees the voice that holds the key and leaves everything else, the increment and the other ages
among it; where no voice holds the key nothing changes (R197). -/
def Obligations.NoteOffReleasesTheVoice : Prop :=
  ∀ (s : State) (key vel : Data7), s.Ready →
    ((∀ v ∈ s.voices, v.currentKey ≠ keyByte key) → exec (.cmdNoteOff key vel) s = .next s) ∧
    ∀ (i : Nat) (v : Voice), s.Inv → s.voices[i]? = some v → v.currentKey = keyByte key →
      ∃ t : State, exec (.cmdNoteOff key vel) s = .next t ∧
        t = { s with
          voices := s.voices.set i { v with currentKey := noneKey, age := freeAge s.cfg, targetVolume := 0 }
          et := t.et
          numActive := s.numActive - 1 } ∧
        1 ≤ s.numActive ∧ ∀ k, t.sounds k = (s.sounds k && decide (k ≠ key))

/-- R202: the allocator has no failure outcome. A note-on ends with a voice of age 0 on the key, velocity 0 included; a
note-off ends with no voice on it, and changes nothing if none was. -/
def Obligations.AllocatorNeverFails : Prop :=
  ∀ (s : State) (key vel : Data7), s.Ready → s.Inv →
    (∃ t : State, exec (.cmdNoteOn key vel) s = .next t ∧ t.sounds key = true ∧ ∃ v ∈ t.voices, v.currentKey = keyByte key ∧
      v.age = 0 ∧ v.increment = inc s.cfg key ∧ v.targetVolume = velocityVolume s.cfg vel) ∧
    (∃ t : State, exec (.cmdNoteOff key vel) s = .next t ∧ t.sounds key = false ∧
      (∀ v ∈ t.voices, v.currentKey ≠ keyByte key) ∧
      (s.sounds key = true → t.numActive + 1 = s.numActive) ∧ (s.sounds key = false → t = s))

/-- R200 [derived], one command of it: where the ages of the assigned voices are distinct and below AGE_MAX, a note-on that
is no retrigger leaves them distinct, the new voice at 0 and every other assigned voice that keeps its key one older. A
note-off leaves them distinct. -/
def Obligations.AgesCountCommandsSinceAssignment : Prop :=
  ∀ (s : State) (key vel : Data7), s.Ready → s.Inv →
    (s.voices.Pairwise fun a b => a.assigned = true → b.assigned = true → a.age ≠ b.age) →
    (∀ v ∈ s.voices, v.assigned = true → v.age < ageMax s.cfg) →
    (s.sounds key = false → ∃ (t : State) (i : Nat) (w : Voice), exec (.cmdNoteOn key vel) s = .next t ∧ t.voices[i]? = some w ∧
      w.currentKey = keyByte key ∧ w.age = 0 ∧
      (t.voices.Pairwise fun a b => a.assigned = true → b.assigned = true → a.age ≠ b.age) ∧
      ∀ (j : Nat) (u : Voice), j ≠ i → s.voices[j]? = some u → u.assigned = true →
        ∃ u' : Voice, t.voices[j]? = some u' ∧ u'.currentKey = u.currentKey ∧ u'.age = u.age + 1) ∧
    (∃ t : State, exec (.cmdNoteOff key vel) s = .next t ∧
      (t.voices.Pairwise fun a b => a.assigned = true → b.assigned = true → a.age ≠ b.age))

/-! ## Ownership -/

/-- R29: whoever is not the tick agent (nor RESET) leaves phase, smoothed volume and duty of every voice, and drives no duty
output; a TICK leaves increment, currentKey, targetVolume, age, EnabledTones and numActive; and what a TICK writes depends
on no other field of a voice than those it reads (with the latches of a torn read, R306). -/
def Obligations.FieldsHaveOneOwner : Prop :=
  (∀ (i : Instr) (s t : State), i ≠ .tick → i ≠ .reset → exec i s = .next t →
    t.voices.map Voice.tickPart = s.voices.map Voice.tickPart ∧ t.emitted = s.emitted) ∧
  (∀ s t : State, exec .tick s = .next t →
    t.voices.map Voice.allocatorPart = s.voices.map Voice.allocatorPart ∧ t.et = s.et ∧ t.numActive = s.numActive) ∧
  (∀ s s' t t' : State, s.cfg = s'.cfg → s.draws = s'.draws →
    s.voices.map Voice.tickReads = s'.voices.map Voice.tickReads →
    exec .tick s = .next t → exec .tick s' = .next t' → t.voices.map Voice.tickPart = t'.voices.map Voice.tickPart)

/-! ## TICK -/

/-- R120: the phase add of every voice, assigned or not (R121 [decision D19]): the exact sum is the carry and the new phase.
The addend is the stored increment, unless the voice is read torn (R124, R306 [decision D26], assumption 11): then some
`P`-bit value. -/
def Obligations.TickAddsTheIncrement : Prop :=
  ∀ s : State, s.Ready → s.Inv → ∃ t : State, exec .tick s = .next t ∧ t.voices.length = s.cfg.N ∧
    ∀ (i : Nat) (v : Voice), s.voices[i]? = some v → ∃ (I : Nat) (w : Voice), t.voices[i]? = some w ∧
      I < 2 ^ s.cfg.P ∧ (readsTorn s.cfg v = false → I = v.increment) ∧ w.phase < 2 ^ s.cfg.P ∧
      w.phase + 2 ^ s.cfg.P * (zeroCrossing s.cfg.P v.phase I).toNat = v.phase + I

/-- R123, the frame of a TICK: it writes phase, smoothed volume and duty of the voices, and no other register. A `torn` bit
changes only by being cleared (R306, decision D26). -/
def Obligations.TickLeavesTheForegroundRegisters : Prop :=
  ∀ s t : State, exec .tick s = .next t →
    t = { s with voices := t.voices, draws := t.draws, emitted := t.emitted } ∧
    t.voices.map Voice.allocatorPart = s.voices.map Voice.allocatorPart ∧
    t.voices.map Voice.tornT = s.voices.map Voice.tornT ∧
    t.voices.map Voice.torn = s.voices.map fun v => v.torn && s.cfg.atomicAssign

/-- R141: under NONE the duty of the very next tick has the target volume, whatever the zero-crossing flag. -/
def Obligations.NonePolicyFollowsTheTarget : Prop :=
  ∀ s t : State, s.cfg.policy = .none → exec .tick s = .next t →
    ∀ (i : Nat) (v : Voice), s.voices[i]? = some v → readsTorn s.cfg v = false → ∃ w : Voice, t.voices[i]? = some w ∧
      w.smoothed = v.smoothed ∧ w.smoothedVolume s.cfg = v.targetVolume ∧
      w.duty = dutyOf v.targetVolume (wavLookup s.cfg.P w.phase)

/-- R142: under TRANSITION the smoothed volume moves one unit toward the target on a crossing and not otherwise; no wrap
occurs. -/
def Obligations.TransitionPolicyMovesOneUnit : Prop :=
  ∀ s t : State, s.cfg.policy = .transition → exec .tick s = .next t →
    ∀ (i : Nat) (v : Voice), s.voices[i]? = some v → readsTorn s.cfg v = false → ∃ w : Voice, t.voices[i]? = some w ∧
      (zeroCrossing s.cfg.P v.phase v.increment = false → w.smoothed = v.smoothed) ∧
      (zeroCrossing s.cfg.P v.phase v.increment = true →
        (v.smoothed < v.targetVolume → w.smoothed.toNat = v.smoothed.toNat + 1) ∧
        (v.targetVolume < v.smoothed → w.smoothed.toNat + 1 = v.smoothed.toNat) ∧
        (v.smoothed = v.targetVolume → w.smoothed = v.smoothed))

/-- R143: under WAIT_NEW_PHASE the smoothed volume is the target on a crossing and unchanged otherwise. -/
def Obligations.WaitNewPhasePolicySnaps : Prop :=
  ∀ s t : State, s.cfg.policy = .waitNewPhase → exec .tick s = .next t →
    ∀ (i : Nat) (v : Voice), s.voices[i]? = some v → readsTorn s.cfg v = false → ∃ w : Voice, t.voices[i]? = some w ∧
      w.smoothed = if zeroCrossing s.cfg.P v.phase v.increment then v.targetVolume else v.smoothed

/-- R144 [derived]: under TRANSITION the distance to the target falls by exactly 1 on a crossing while it is not 0, stays
otherwise, and the target is never passed. -/
def Obligations.TransitionPolicyConverges : Prop :=
  ∀ s t : State, s.cfg.policy = .transition → exec .tick s = .next t →
    ∀ (i : Nat) (v : Voice), s.voices[i]? = some v → readsTorn s.cfg v = false → ∃ w : Voice, t.voices[i]? = some w ∧
      ((w.smoothed.toNat : Int) - w.targetVolume.toNat).natAbs
          + (if zeroCrossing s.cfg.P v.phase v.increment ∧ v.smoothed ≠ v.targetVolume then 1 else 0)
        = ((v.smoothed.toNat : Int) - v.targetVolume.toNat).natAbs ∧
      (v.smoothed ≤ v.targetVolume → w.smoothed ≤ w.targetVolume) ∧
      (v.targetVolume ≤ v.smoothed → w.targetVolume ≤ w.smoothed)

/-- R146 [derived]: a voice whose increment is 0 keeps its phase and its stored smoothed volume. -/
def Obligations.ZeroIncrementVoiceStands : Prop :=
  ∀ s t : State, s.Inv → exec .tick s = .next t → ∀ (i : Nat) (v : Voice), s.voices[i]? = some v → readsTorn s.cfg v = false →
    v.increment = 0 → ∃ w : Voice, t.voices[i]? = some w ∧ w.phase = v.phase ∧ w.smoothed = v.smoothed

/-- R160 [decisions D10, D12, D13] with R102, R161, R162: the duty is the floor of volume times sample over 256, plus 128,
at the phase and the volume this tick wrote; it lies in 1..254. -/
def Obligations.DutyIsBiasedProduct : Prop :=
  ∀ s t : State, s.Inv → exec .tick s = .next t → ∀ (i : Nat) (v : Voice), s.voices[i]? = some v → readsTorn s.cfg v = false →
    ∃ w : Voice, t.voices[i]? = some w ∧ w.phase / 2 ^ (s.cfg.P - 8) < 256 ∧
      (w.duty.toNat : Int) =
        (w.smoothedVolume s.cfg).toNat * wav.getD (w.phase / 2 ^ (s.cfg.P - 8)) 0 / 256 + 128 ∧
      1 ≤ w.duty.toNat ∧ w.duty.toNat ≤ 254

/-- R163 [decisions D19, D28]: every TICK emits one duty per voice, in ascending order, the value left in the voice's
register. -/
def Obligations.TickEmitsOneDutyPerVoice : Prop :=
  ∀ s t : State, s.Inv → exec .tick s = .next t → ∃ es, t.emitted = s.emitted ++ es ∧ es.length = s.cfg.N ∧
    ∀ i, i < s.cfg.N → ∃ w : Voice, t.voices[i]? = some w ∧ es[i]? = some ⟨i, w.duty⟩

/-- R164 [derived]: for a fixed sample the duty is monotone in the volume: up for a positive sample, down for a negative
one, the bias for 0. -/
def Obligations.DutyIsMonotoneInVolume : Prop :=
  ∀ (vol vol' : Byte) (sample : BitVec 8), vol ≤ vol' →
    (0 < sample.toInt → dutyOf vol sample ≤ dutyOf vol' sample) ∧
    (sample.toInt < 0 → dutyOf vol' sample ≤ dutyOf vol sample) ∧
    (sample = 0 → dutyOf vol sample = 0x80#8)

/-- R306 [decision D26]: with ATOMIC_ASSIGN = false a voice assigned since the last tick steps on some `P`-bit increment and
on the old or the new target, for every value of the draw; the stored increment stays and the bit is cleared. Any other
voice steps on what is stored. -/
def Obligations.TornReadLastsOneTick : Prop :=
  ∀ s t : State, exec .tick s = .next t → ∀ (i : Nat) (v : Voice), s.voices[i]? = some v →
    (s.cfg.atomicAssign = false → v.torn = true → ∃ I T, I < 2 ^ s.cfg.P ∧ (T = v.tornT ∨ T = v.targetVolume) ∧
      t.voices[i]? = some { stepVoice s.cfg I T v with increment := v.increment, torn := false }) ∧
    (s.cfg.atomicAssign = true ∨ v.torn = false →
      t.voices[i]? = some (stepVoice s.cfg v.increment v.targetVolume v))

/-- R222 [decision D24], R305: a TICK before DECODE or after it gives the same state. -/
def Obligations.TickAndDecodeCommute : Prop :=
  ∀ s : State, s.Ready → s.dec.state = .decodeStatus →
    ∃ t, andThen (exec .tick s) (exec .decode) = .next t ∧ andThen (exec .decode s) (exec .tick) = .next t

/-- R125 [derived]: after `n` ticks the phase is `(p0 + n I) mod 2^P`. -/
def Obligations.PhaseAfterTicks : Prop :=
  ∀ (s : State) (i : Nat) (v : Voice) (n : Nat), s.Ready → s.Inv → s.voices[i]? = some v →
    readsTorn s.cfg v = false → ∃ (t : State) (w : Voice), ticks n s = .next t ∧ t.voices[i]? = some w ∧
      w.phase = (v.phase + n * v.increment) % 2 ^ s.cfg.P ∧ w.increment = v.increment

/-- R125 (a) [derived]: the phase is back exactly after the multiples of `2^P / gcd(I, 2^P)` ticks. -/
def Obligations.PhasePeriod : Prop :=
  ∀ (s : State) (i : Nat) (v : Voice) (n : Nat), s.Ready → s.Inv → s.voices[i]? = some v →
    readsTorn s.cfg v = false → 0 < v.increment →
    ((∃ (t : State) (w : Voice), ticks n s = .next t ∧ t.voices[i]? = some w ∧ w.phase = v.phase) ↔
      2 ^ s.cfg.P / Nat.gcd v.increment (2 ^ s.cfg.P) ∣ n)

/-- R125 (b) [derived]: between two consecutive zero crossings there are `floor` or `ceil` of `2^P / I` ticks. -/
def Obligations.ZeroCrossingSpacing : Prop :=
  ∀ (s : State) (i : Nat) (v : Voice) (t1 t2 : Nat), s.Ready → s.Inv → s.voices[i]? = some v →
    readsTorn s.cfg v = false → 0 < v.increment → t1 < t2 → crossesAtTick s i t1 → crossesAtTick s i t2 →
    (∀ t, t1 < t → t < t2 → ¬crossesAtTick s i t) →
    t2 - t1 = 2 ^ s.cfg.P / v.increment ∨ t2 - t1 = (2 ^ s.cfg.P + v.increment - 1) / v.increment

/-- R401 [derived]: the first TICK after RESET emits BIAS on every channel and leaves every voice as it is. -/
def Obligations.ResetBankIsSilent : Prop :=
  ∀ (cfg : Config) (inputs : List Input), configValid cfg = true →
    ∃ t : State, exec .tick ((State.resetWith cfg).withSchedule inputs) = .next t ∧
      t.voices = (State.resetWith cfg).voices ∧ t.emitted = (List.range cfg.N).map fun i => ⟨i, 0x80#8⟩

/-! ## Messages -/

/-- MSG.NOTE_ON (R224): at SEEK_STATUS on the serviced channel the message is CMD_NOTE_ON of its operands, with the latches
written; it completes and the key sounds. The row as one step is the model's choice (assumption 4). -/
def Obligations.NoteOnMessageIsNoteOn : Prop :=
  ∀ (s : State) (k v : Data7), s.Ready → s.Inv → s.dec.state = .seekStatus → v ≠ 0 →
    let d : Decoder := ⟨.seekStatus, statusByte 1#3 s.cfg.midiChannel, .on, dataByte k⟩
    ∃ t : State, exec (.msgNoteOn s.cfg.midiChannel k v) s = .next t ∧ exec (.cmdNoteOn k v) { s with dec := d } = .next t ∧
      t.dec = d ∧ t.sounds k = true

/-- MSG.NOTE_OFF and MSG.NOTE_ON_V0 (R224, R229): at SEEK_STATUS on the serviced channel the message is CMD_NOTE_OFF of its
key, with the latches written; it completes and the key does not sound (assumption 4). -/
def Obligations.NoteOffMessagesAreNoteOff : Prop :=
  ∀ (s : State) (k v : Data7), s.Ready → s.Inv → s.dec.state = .seekStatus →
    (let d : Decoder := ⟨.seekStatus, statusByte 0#3 s.cfg.midiChannel, .off, dataByte k⟩
      ∃ t : State, exec (.msgNoteOff s.cfg.midiChannel k v) s = .next t ∧
        exec (.cmdNoteOff k v) { s with dec := d } = .next t ∧ t.dec = d ∧ t.sounds k = false) ∧
    (let d : Decoder := ⟨.seekStatus, statusByte 1#3 s.cfg.midiChannel, .on, dataByte k⟩
      ∃ t : State, exec (.msgNoteOnV0 s.cfg.midiChannel k) s = .next t ∧
        exec (.cmdNoteOff k 0) { s with dec := d } = .next t ∧ t.dec = d ∧ t.sounds k = false)

/-- The nine message rows that dispatch nothing (R75, R224, R228): at SEEK_STATUS they are consumed, the decoder's latches
are written, and nothing else changes (assumption 4). -/
def Obligations.SilentMessagesChangeLatchesOnly : Prop :=
  ∀ (s : State) (c : Cmd) (h : Channel) (k v : Byte) (k7 v7 : Data7), s.Ready → s.dec.state = .seekStatus →
    let after (c : Cmd) (k : Byte) : State := { s with dec :=
      ⟨.seekStatus, statusByte c h, kindOf s.cfg.midiChannel (statusByte c h), k⟩ }
    (h ≠ s.cfg.midiChannel → exec (.msgNotServiced c h k v) s = .next (after c k)) ∧
    exec (.msgKeyBit7 c h k7 v) s = .next (after c (markedByte k7)) ∧
    exec (.msgVelBit7 c h k v7) s = .next (after c k) ∧
    exec (.msgIgnoredA h k v) s = .next (after 2#3 k) ∧
    exec (.msgIgnoredB h k v) s = .next (after 3#3 k) ∧
    exec (.msgIgnoredC h k v) s = .next (after 4#3 k) ∧
    exec (.msgIgnoredD h k v) s = .next (after 5#3 k) ∧
    exec (.msgIgnoredE h k v) s = .next (after 6#3 k) ∧
    exec (.msgIgnoredF h k v) s = .next (after 7#3 k)

/-- 30_encoding.md R81: a message in one step is its three bytes and the DECODE after the first, four steps of the machine
(assumption 4), for a message that comes at SEEK_STATUS. -/
def Obligations.MessageIsItsThreeBytes : Prop :=
  ∀ (s : State) (b k v : Byte) (rest : List Input), isStatusByte b = true → s.dec.state = .seekStatus →
    step { s with schedule := .message b k v :: rest } =
      Host.Core.run Sys2Proof.core 4 { s with schedule := .byte b :: .byte k :: .byte v :: rest }

/-- R227 [derived]: from SEEK_STATUS every message, whatever its content, is consumed whole and leaves the decoder at
SEEK_STATUS with the rest of the inputs. -/
def Obligations.EveryMessageRealigns : Prop :=
  ∀ (s : State) (b k v : Byte) (rest : List Input), s.Ready → s.Inv → isStatusByte b = true →
    s.dec.state = .seekStatus → s.schedule = .byte b :: .byte k :: .byte v :: rest →
    ∃ t : State, Host.Core.run Sys2Proof.core 4 s = .next t ∧ t.dec.state = .seekStatus ∧ t.schedule = rest ∧ t.Inv

/-- Every row of the table, on every operand, runs at every decoder position that enables it, and keeps the invariants:
ticks, resets, port commands and whole messages at all four positions (R202, R300). -/
def Obligations.EveryEnabledOperationCompletes : Prop :=
  ∀ (i : Instr) (s : State), s.Ready → s.Inv → i.enabledAt s.dec.state = true → ∃ t : State, exec i s = .next t ∧ t.Inv

/-! ## RESET and the configuration -/

/-- R400 [decision D27]: RESET gives every register its reset value from any state, before the first RESET too, and emits
nothing. The configuration stays (R36); the environment's schedule, the outputs so far and the numbering of free values
are not the block's (assumption 18). -/
def Obligations.ResetSetsEveryRegister : Prop :=
  ∀ s : State, configValid s.cfg = true → exec .reset s = .next { s with
    voices := List.replicate s.cfg.N {
      phase := 0, increment := 0, currentKey := 0xFF#8, targetVolume := 0, smoothed := 0, age := 2 ^ s.cfg.W - 1,
      duty := 0x80#8, torn := false, tornT := 0 }
    et := 0
    numActive := 0
    dec := { state := .seekStatus, status := 0x00#8, kind := .ignore, key := 0x00#8 }
    booted := true }

/-- R403 [decisions D27, D44]: before the first RESET no operation but RESET has a meaning (assumption 9). -/
def Obligations.NothingRunsBeforeReset : Prop :=
  ∀ (i : Instr) (s : State), configValid s.cfg = true → s.booted = false → i ≠ .reset →
    exec i s = .refused .beforeReset

/-- R36 [decision D32]: a configuration that violates a constraint is refused, by every operation and by the step. -/
def Obligations.InvalidConfigurationIsRefused : Prop :=
  ∀ s : State, configValid s.cfg = false →
    step s = .refused .invalidConfiguration ∧ ∀ i, exec i s = .refused .invalidConfiguration

/-- R6 to R14: a configuration is valid exactly when it meets the constraints of 00_scope.md. -/
def Obligations.ValidConfigurationMeetsConstraints : Prop :=
  ∀ cfg : Config, configValid cfg = true ↔
    1 ≤ cfg.N ∧ 8 ≤ cfg.P ∧ 9 ≤ cfg.maxOctave ∧
    (cfg.freqTable.length = 12 ∧ ∀ n, n < 12 → readFreq cfg n < 2 ^ cfg.P) ∧
    (cfg.velocityMap.length = 128 ∧
      ∀ v1 v2 : Data7, v1 ≤ v2 → velocityVolume cfg v1 ≤ velocityVolume cfg v2) ∧
    cfg.N + 1 ≤ 2 ^ cfg.W

/-- R36 [decision D32]: no step writes the configuration. -/
def Obligations.ConfigurationIsNeverWritten : Prop :=
  ∀ s t : State, step s = .next t → t.cfg = s.cfg

/-! ## Invariants -/

/-- R32 [derived]: every step keeps INV1 to INV5 and the register widths, from every state that has them. -/
def Obligations.StepKeepsTheInvariants : Prop :=
  ∀ s t : State, s.Inv → step s = .next t → t.Inv

/-- R32 [derived]: the invariants hold right after RESET, under every valid configuration and for `State.reset`. -/
def Obligations.InvariantsHoldAfterReset : Prop :=
  State.reset.Inv ∧ State.reset.Ready ∧
  ∀ (cfg : Config) (inputs : List Input), configValid cfg = true →
    ((State.resetWith cfg).withSchedule inputs).Inv ∧ ((State.resetWith cfg).withSchedule inputs).Ready

/-- R300: no operation faults. In every state a run reaches, whatever the environment delivers, the step answers a next
state: neither a fault nor a refusal. -/
def Obligations.NoReachableStateStops : Prop :=
  ∀ s : State, Reachable s → ∃ t, step s = .next t

/-- R300 with R32 [derived], as a step lemma: from every ready state with the invariants, reached or not, the step answers a
next state, which is ready and has the invariants. -/
def Obligations.ReadyStatesStepToReadyStates : Prop :=
  ∀ s : State, s.Ready → s.Inv → ∃ t, step s = .next t ∧ t.Ready ∧ t.Inv

/-! ## Tables -/

/-- R103 [derived]: the symmetries of the wavetable, its zeros and extremes, and its bounds. -/
def Obligations.WavetableSymmetriesAndBounds : Prop :=
  wav.length = 256 ∧ readWav 0#8 = 0 ∧ readWav 128#8 = 0 ∧ (readWav 64#8).toInt = 127 ∧ (readWav 192#8).toInt = -127 ∧
  (∀ i : Data7, (readWav (markedByte i)).toInt = -(readWav (dataByte i)).toInt) ∧
  (∀ i : Data7, i ≠ 0 → readWav (128#8 - dataByte i) = readWav (dataByte i)) ∧
  ∀ a : Byte, -127 ≤ (readWav a).toInt ∧ (readWav a).toInt ≤ 127

/-- R106 with R105 [decision D8] and R107 [derived]: the increment of a key is its semitone's entry shifted by its octave,
with and without OCTAVE_LOOKUP, and fits the register. -/
def Obligations.IncrementOfKey : Prop :=
  ∀ (cfg : Config) (key : Data7), configValid cfg = true →
    inc cfg key = readFreq cfg (key.toNat % 12) >>> (cfg.maxOctave + 1 - key.toNat / 12) ∧
    inc { cfg with octaveLookup := true } key = inc { cfg with octaveLookup := false } key ∧
    inc cfg key < 2 ^ cfg.P

/-- R108 [derived]: an octave up doubles the increment, up to one unit of truncation. -/
def Obligations.OctaveDoublesTheIncrement : Prop :=
  ∀ (cfg : Config) (key up : Data7), configValid cfg = true → up.toNat = key.toNat + 12 →
    inc cfg up = 2 * inc cfg key ∨ inc cfg up = 2 * inc cfg key + 1
end

