-- ==== Sys2Proof/Laws/Bytes.lean ====
section
/-! SUPPORT. Fields of bytes and port words, the key byte, and the bits of EnabledTones. -/

namespace Sys2Proof

@[simp] theorem isStatusByte_statusByte : ∀ (c : Cmd) (h : Channel), isStatusByte (statusByte c h) = true := by decide
@[simp] theorem statusCmd_statusByte : ∀ (c : Cmd) (h : Channel), statusCmd (statusByte c h) = c := by decide
@[simp] theorem statusChannel_statusByte : ∀ (c : Cmd) (h : Channel), statusChannel (statusByte c h) = h := by decide
@[simp] theorem isStatusByte_dataByte : ∀ d : Data7, isStatusByte (dataByte d) = false := by decide
@[simp] theorem isStatusByte_markedByte : ∀ d : Data7, isStatusByte (markedByte d) = true := by decide
@[simp] theorem low7_dataByte : ∀ d : Data7, low7 (dataByte d) = d := by decide
@[simp] theorem low7_markedByte : ∀ d : Data7, low7 (markedByte d) = d := by decide
@[simp] theorem isStatusByte_zero : isStatusByte 0#8 = false := by decide
@[simp] theorem low7_zero : low7 0#8 = 0#7 := by decide
@[simp] theorem dataByte_zero : dataByte 0#7 = 0#8 := by decide

theorem dataByte_toNat : ∀ d : Data7, (dataByte d).toNat = d.toNat := by decide
theorem dataByte_ne_none : ∀ d : Data7, dataByte d ≠ 0xFF#8 := by decide

theorem statusByte_fields : ∀ b : Byte, isStatusByte b = true → statusByte (statusCmd b) (statusChannel b) = b := by decide
theorem markedByte_low7 : ∀ b : Byte, isStatusByte b = true → markedByte (low7 b) = b := by decide
theorem dataByte_low7 : ∀ b : Byte, isStatusByte b = false → dataByte (low7 b) = b := by decide

theorem dataByte_inj {a b : Data7} : dataByte a = dataByte b ↔ a = b :=
  ⟨fun h => by simpa using congrArg low7 h, fun h => h ▸ rfl⟩

@[simp] theorem dataByte_eq_zero {d : Data7} : dataByte d = 0#8 ↔ d = 0#7 := by
  rw [← dataByte_zero, dataByte_inj]

theorem portWord_toNat (op : BitVec 1) (k v : Data7) :
    (portWord op k v).toNat = op.toNat * 2 ^ 14 + k.toNat * 2 ^ 7 + v.toNat := by
  have hv : v.toNat < 2 ^ 7 := v.isLt
  have hk : k.toNat < 2 ^ 7 := k.isLt
  simp only [portWord, BitVec.toNat_append]
  rw [← Nat.shiftLeft_add_eq_or_of_lt hk, ← Nat.shiftLeft_add_eq_or_of_lt hv]
  simp only [Nat.shiftLeft_eq]
  ring

/-- The fields of a port word (30_encoding.md R78). -/
@[simp] theorem portWord_msb (op : BitVec 1) (k v : Data7) : (portWord op k v).msb = (op == 1#1) := by
  have hv : v.toNat < 2 ^ 7 := v.isLt
  have hk : k.toNat < 2 ^ 7 := k.isLt
  have ho : ∀ op : BitVec 1, (op == 1#1) = decide (1 ≤ op.toNat) := by decide
  rw [BitVec.msb_eq_decide, portWord_toNat, ho, decide_eq_decide]
  omega

@[simp] theorem portWord_key (op : BitVec 1) (k v : Data7) : (portWord op k v).extractLsb' 7 7 = k := by
  apply BitVec.eq_of_toNat_eq
  have hv : v.toNat < 2 ^ 7 := v.isLt
  have hk : k.toNat < 2 ^ 7 := k.isLt
  have ho : op.toNat < 2 ^ 1 := op.isLt
  rw [BitVec.extractLsb'_toNat, portWord_toNat, Nat.shiftRight_eq_div_pow]
  omega

@[simp] theorem portWord_velocity (op : BitVec 1) (k v : Data7) : (portWord op k v).extractLsb' 0 7 = v := by
  apply BitVec.eq_of_toNat_eq
  have hv : v.toNat < 2 ^ 7 := v.isLt
  rw [BitVec.extractLsb'_toNat, portWord_toNat, Nat.shiftRight_eq_div_pow]
  omega

theorem portWord_fields (w : PortWord) :
    portWord (if w.msb then 1#1 else 0#1) (w.extractLsb' 7 7) (w.extractLsb' 0 7) = w := by
  apply BitVec.eq_of_toNat_eq
  have hw : w.toNat < 2 ^ 15 := w.isLt
  have hm : (if w.msb then 1#1 else 0#1 : BitVec 1).toNat = w.toNat / 2 ^ 14 := by
    by_cases h : 2 ^ 14 ≤ w.toNat
    · rw [BitVec.msb_eq_decide, if_pos (by simpa using h)]
      simp only [BitVec.toNat_ofNat]
      omega
    · rw [BitVec.msb_eq_decide, if_neg (by simpa using h)]
      simp only [BitVec.toNat_ofNat]
      omega
  rw [portWord_toNat, hm]
  simp only [BitVec.extractLsb'_toNat, Nat.shiftRight_eq_div_pow]
  omega

namespace Machine

@[simp] theorem keyByte_toNat (k : Data7) : (keyByte k).toNat = k.toNat := dataByte_toNat k
theorem keyByte_inj {a b : Data7} : keyByte a = keyByte b ↔ a = b := dataByte_inj
@[simp] theorem low7_keyByte (k : Data7) : low7 (keyByte k) = k := low7_dataByte k
@[simp] theorem keyByte_ne_noneKey (k : Data7) : keyByte k ≠ noneKey := dataByte_ne_none k
@[simp] theorem noneKey_ne_keyByte (k : Data7) : noneKey ≠ keyByte k := (dataByte_ne_none k).symm
@[simp] theorem keyByte_msb (k : Data7) : (keyByte k).msb = false := isStatusByte_dataByte k
theorem keyByte_low7 {b : Byte} (h : b.msb = false) : keyByte (low7 b) = b := dataByte_low7 b h

theorem setTone_getLsbD (et : BitVec 128) (k : Nat) (j : Data7) :
    (setTone et k).getLsbD j.toNat = (decide (k = j.toNat) || et.getLsbD j.toNat) := by
  have hj : j.toNat < 128 := j.isLt
  simp only [setTone, BitVec.getLsbD_or, BitVec.getLsbD_twoPow]
  by_cases h : k = j.toNat
  · subst h; simp [hj]
  · simp [h]

theorem clearTone_getLsbD (et : BitVec 128) (k : Nat) (j : Data7) :
    (clearTone et k).getLsbD j.toNat = (decide (k ≠ j.toNat) && et.getLsbD j.toNat) := by
  have hj : j.toNat < 128 := j.isLt
  simp only [clearTone, BitVec.getLsbD_and, BitVec.getLsbD_not, BitVec.getLsbD_twoPow]
  by_cases h : k = j.toNat
  · subst h; simp [hj]
  · simp [h, hj]

/-- Two presence sets with the same keys are the same vector. -/
theorem tones_ext {a b : BitVec 128} (h : ∀ j : Data7, a.getLsbD j.toNat = b.getLsbD j.toNat) : a = b := by
  apply BitVec.eq_of_getLsbD_eq
  intro i hi
  simpa [Nat.mod_eq_of_lt hi] using h (BitVec.ofNat 7 i)

end Machine

end Sys2Proof
end

