-- ==== Sys2Proof/Laws/State.lean ====
section
/-! SUPPORT. One lemma per field per update of State, true by rfl, so that no proof unfolds an update. -/

namespace Sys2Proof.Machine

@[simp] theorem withVoices_cfg (s : State) (vs : List Voice) : (s.withVoices vs).cfg = s.cfg := rfl
@[simp] theorem withVoices_voices (s : State) (vs : List Voice) : (s.withVoices vs).voices = vs := rfl
@[simp] theorem withVoices_et (s : State) (vs : List Voice) : (s.withVoices vs).et = s.et := rfl
@[simp] theorem withVoices_numActive (s : State) (vs : List Voice) : (s.withVoices vs).numActive = s.numActive := rfl
@[simp] theorem withVoices_dec (s : State) (vs : List Voice) : (s.withVoices vs).dec = s.dec := rfl
@[simp] theorem withVoices_booted (s : State) (vs : List Voice) : (s.withVoices vs).booted = s.booted := rfl
@[simp] theorem withVoices_draws (s : State) (vs : List Voice) : (s.withVoices vs).draws = s.draws := rfl
@[simp] theorem withVoices_emitted (s : State) (vs : List Voice) : (s.withVoices vs).emitted = s.emitted := rfl
@[simp] theorem withVoices_schedule (s : State) (vs : List Voice) : (s.withVoices vs).schedule = s.schedule := rfl

@[simp] theorem withEt_cfg (s : State) (e : BitVec 128) : (s.withEt e).cfg = s.cfg := rfl
@[simp] theorem withEt_voices (s : State) (e : BitVec 128) : (s.withEt e).voices = s.voices := rfl
@[simp] theorem withEt_et (s : State) (e : BitVec 128) : (s.withEt e).et = e := rfl
@[simp] theorem withEt_numActive (s : State) (e : BitVec 128) : (s.withEt e).numActive = s.numActive := rfl
@[simp] theorem withEt_dec (s : State) (e : BitVec 128) : (s.withEt e).dec = s.dec := rfl
@[simp] theorem withEt_booted (s : State) (e : BitVec 128) : (s.withEt e).booted = s.booted := rfl
@[simp] theorem withEt_draws (s : State) (e : BitVec 128) : (s.withEt e).draws = s.draws := rfl
@[simp] theorem withEt_emitted (s : State) (e : BitVec 128) : (s.withEt e).emitted = s.emitted := rfl
@[simp] theorem withEt_schedule (s : State) (e : BitVec 128) : (s.withEt e).schedule = s.schedule := rfl

@[simp] theorem withNumActive_cfg (s : State) (n : Nat) : (s.withNumActive n).cfg = s.cfg := rfl
@[simp] theorem withNumActive_voices (s : State) (n : Nat) : (s.withNumActive n).voices = s.voices := rfl
@[simp] theorem withNumActive_et (s : State) (n : Nat) : (s.withNumActive n).et = s.et := rfl
@[simp] theorem withNumActive_numActive (s : State) (n : Nat) : (s.withNumActive n).numActive = n % 2 ^ activeWidth s.cfg := rfl
@[simp] theorem withNumActive_dec (s : State) (n : Nat) : (s.withNumActive n).dec = s.dec := rfl
@[simp] theorem withNumActive_booted (s : State) (n : Nat) : (s.withNumActive n).booted = s.booted := rfl
@[simp] theorem withNumActive_draws (s : State) (n : Nat) : (s.withNumActive n).draws = s.draws := rfl
@[simp] theorem withNumActive_emitted (s : State) (n : Nat) : (s.withNumActive n).emitted = s.emitted := rfl
@[simp] theorem withNumActive_schedule (s : State) (n : Nat) : (s.withNumActive n).schedule = s.schedule := rfl

@[simp] theorem withDec_cfg (s : State) (d : Decoder) : (s.withDec d).cfg = s.cfg := rfl
@[simp] theorem withDec_voices (s : State) (d : Decoder) : (s.withDec d).voices = s.voices := rfl
@[simp] theorem withDec_et (s : State) (d : Decoder) : (s.withDec d).et = s.et := rfl
@[simp] theorem withDec_numActive (s : State) (d : Decoder) : (s.withDec d).numActive = s.numActive := rfl
@[simp] theorem withDec_dec (s : State) (d : Decoder) : (s.withDec d).dec = d := rfl
@[simp] theorem withDec_booted (s : State) (d : Decoder) : (s.withDec d).booted = s.booted := rfl
@[simp] theorem withDec_draws (s : State) (d : Decoder) : (s.withDec d).draws = s.draws := rfl
@[simp] theorem withDec_emitted (s : State) (d : Decoder) : (s.withDec d).emitted = s.emitted := rfl
@[simp] theorem withDec_schedule (s : State) (d : Decoder) : (s.withDec d).schedule = s.schedule := rfl

@[simp] theorem withSchedule_cfg (s : State) (es : List Input) : (s.withSchedule es).cfg = s.cfg := rfl
@[simp] theorem withSchedule_voices (s : State) (es : List Input) : (s.withSchedule es).voices = s.voices := rfl
@[simp] theorem withSchedule_et (s : State) (es : List Input) : (s.withSchedule es).et = s.et := rfl
@[simp] theorem withSchedule_numActive (s : State) (es : List Input) : (s.withSchedule es).numActive = s.numActive := rfl
@[simp] theorem withSchedule_dec (s : State) (es : List Input) : (s.withSchedule es).dec = s.dec := rfl
@[simp] theorem withSchedule_booted (s : State) (es : List Input) : (s.withSchedule es).booted = s.booted := rfl
@[simp] theorem withSchedule_draws (s : State) (es : List Input) : (s.withSchedule es).draws = s.draws := rfl
@[simp] theorem withSchedule_emitted (s : State) (es : List Input) : (s.withSchedule es).emitted = s.emitted := rfl
@[simp] theorem withSchedule_schedule (s : State) (es : List Input) : (s.withSchedule es).schedule = es := rfl

@[simp] theorem withVoice_cfg (s : State) (i : Nat) (v : Voice) : (s.withVoice i v).cfg = s.cfg := rfl
@[simp] theorem withVoice_voices (s : State) (i : Nat) (v : Voice) : (s.withVoice i v).voices = s.voices.set i v := rfl
@[simp] theorem withVoice_et (s : State) (i : Nat) (v : Voice) : (s.withVoice i v).et = s.et := rfl
@[simp] theorem withVoice_numActive (s : State) (i : Nat) (v : Voice) : (s.withVoice i v).numActive = s.numActive := rfl
@[simp] theorem withVoice_dec (s : State) (i : Nat) (v : Voice) : (s.withVoice i v).dec = s.dec := rfl
@[simp] theorem withVoice_booted (s : State) (i : Nat) (v : Voice) : (s.withVoice i v).booted = s.booted := rfl
@[simp] theorem withVoice_draws (s : State) (i : Nat) (v : Voice) : (s.withVoice i v).draws = s.draws := rfl
@[simp] theorem withVoice_emitted (s : State) (i : Nat) (v : Voice) : (s.withVoice i v).emitted = s.emitted := rfl
@[simp] theorem withVoice_schedule (s : State) (i : Nat) (v : Voice) : (s.withVoice i v).schedule = s.schedule := rfl

@[simp] theorem resetWith_cfg (cfg : Config) : (State.resetWith cfg).cfg = cfg := rfl
@[simp] theorem resetWith_voices (cfg : Config) : (State.resetWith cfg).voices = List.replicate cfg.N (Voice.reset cfg) := rfl
@[simp] theorem resetWith_et (cfg : Config) : (State.resetWith cfg).et = 0 := rfl
@[simp] theorem resetWith_numActive (cfg : Config) : (State.resetWith cfg).numActive = 0 := rfl
@[simp] theorem resetWith_dec (cfg : Config) : (State.resetWith cfg).dec = Decoder.reset := rfl
@[simp] theorem resetWith_booted (cfg : Config) : (State.resetWith cfg).booted = true := rfl
@[simp] theorem resetWith_draws (cfg : Config) : (State.resetWith cfg).draws = 0 := rfl
@[simp] theorem resetWith_emitted (cfg : Config) : (State.resetWith cfg).emitted = [] := rfl
@[simp] theorem resetWith_schedule (cfg : Config) : (State.resetWith cfg).schedule = [] := rfl

@[simp] theorem resetState_cfg (s : State) : (resetState s).cfg = s.cfg := rfl
@[simp] theorem resetState_voices (s : State) : (resetState s).voices = List.replicate s.cfg.N (Voice.reset s.cfg) := rfl
@[simp] theorem resetState_et (s : State) : (resetState s).et = 0 := rfl
@[simp] theorem resetState_numActive (s : State) : (resetState s).numActive = 0 := rfl
@[simp] theorem resetState_dec (s : State) : (resetState s).dec = Decoder.reset := rfl
@[simp] theorem resetState_booted (s : State) : (resetState s).booted = true := rfl
@[simp] theorem resetState_draws (s : State) : (resetState s).draws = s.draws := rfl
@[simp] theorem resetState_emitted (s : State) : (resetState s).emitted = s.emitted := rfl
@[simp] theorem resetState_schedule (s : State) : (resetState s).schedule = s.schedule := rfl

@[simp] theorem tickState_cfg (s : State) : (tickState s).cfg = s.cfg := rfl
@[simp] theorem tickState_voices (s : State) : (tickState s).voices = tickVoices s.cfg s.draws s.voices := rfl
@[simp] theorem tickState_et (s : State) : (tickState s).et = s.et := rfl
@[simp] theorem tickState_numActive (s : State) : (tickState s).numActive = s.numActive := rfl
@[simp] theorem tickState_dec (s : State) : (tickState s).dec = s.dec := rfl
@[simp] theorem tickState_booted (s : State) : (tickState s).booted = s.booted := rfl
@[simp] theorem tickState_draws (s : State) : (tickState s).draws = s.draws + 1 := rfl
@[simp] theorem tickState_emitted (s : State) : (tickState s).emitted = s.emitted ++ emissions (tickVoices s.cfg s.draws s.voices) := rfl
@[simp] theorem tickState_schedule (s : State) : (tickState s).schedule = s.schedule := rfl

end Sys2Proof.Machine
end

