-- ==== Sys2Proof/Laws/Config.lean ====
section
/-! SUPPORT. What a valid configuration gives, and the ROM reads under it. -/

namespace Sys2Proof.Machine

variable {cfg : Config}

theorem configValid_iff : configValid cfg = true ↔
    1 ≤ cfg.N ∧ 8 ≤ cfg.P ∧ 9 ≤ cfg.maxOctave ∧ cfg.freqTable.length = 12 ∧ (∀ f ∈ cfg.freqTable, f < 2 ^ cfg.P) ∧
    cfg.velocityMap.length = 128 ∧ monotone cfg.velocityMap = true ∧ cfg.N + 1 ≤ 2 ^ cfg.W := by
  simp [configValid, and_assoc]

theorem valid_N (h : configValid cfg = true) : 1 ≤ cfg.N := (configValid_iff.1 h).1
theorem valid_P (h : configValid cfg = true) : 8 ≤ cfg.P := (configValid_iff.1 h).2.1
theorem valid_W (h : configValid cfg = true) : cfg.N + 1 ≤ 2 ^ cfg.W := (configValid_iff.1 h).2.2.2.2.2.2.2

/-- Both codes and the ages below them are different numbers: at least two ages exist. -/
theorem ageMax_lt_freeAge (h : configValid cfg = true) : ageMax cfg < freeAge cfg := by
  have hN := valid_N h
  have hW := valid_W h
  unfold ageMax freeAge
  omega

theorem zero_ne_freeAge (h : configValid cfg = true) : 0 ≠ freeAge cfg := by
  have := ageMax_lt_freeAge h
  omega

theorem lt_two_pow_activeWidth (cfg : Config) : cfg.N < 2 ^ activeWidth cfg := Nat.lt_log2_self

theorem readFreq_lt (h : configValid cfg = true) (s : Nat) : readFreq cfg s < 2 ^ cfg.P := by
  have hf := (configValid_iff.1 h).2.2.2.2.1
  unfold readFreq
  rw [List.getD_eq_getElem?_getD]
  cases hs : cfg.freqTable[s]? with
  | none => simp
  | some f => simpa using hf f (List.mem_of_getElem? hs)

/-- The split of a key is the same by table and by division (40_tables.md R107). -/
theorem octaveShift_eq (cfg : Config) (key : Data7) :
    octaveShift cfg key = (key.toNat / 12, cfg.maxOctave + 1 - key.toNat / 12) := by
  have hk : key.toNat < 128 := key.isLt
  unfold octaveShift octaveTable
  split <;> simp [hk]

theorem inc_lt (h : configValid cfg = true) (key : Data7) : inc cfg key < 2 ^ cfg.P :=
  lt_of_le_of_lt (Nat.shiftRight_le ..) (readFreq_lt h _)

end Sys2Proof.Machine
end

