-- ==== Sys2Proof/Laws/Outcome.lean ====
section
/-! SUPPORT. The outcomes of the shared gates: when they answer a next state, and which. -/

namespace Sys2Proof.Machine

@[simp] theorem andThen_next (s : State) (f : State → Result) : andThen (.next s) f = f s := rfl
@[simp] theorem andThen_refused (e : Refusal) (f : State → Result) : andThen (.refused e) f = .refused e := rfl

theorem andThen_eq_next_iff {r : Result} {f : State → Result} {t : State} :
    andThen r f = .next t ↔ ∃ s, r = .next s ∧ f s = .next t := by
  cases r <;> simp [andThen]

theorem andThen_assoc (r : Result) (f g : State → Result) :
    andThen (andThen r f) g = andThen r fun s => andThen (f s) g := by
  cases r <;> rfl

@[simp] theorem andThen_pure (r : Result) : (andThen r fun s => .next s) = r := by
  cases r <;> rfl

theorem whenReady_of_ready {s : State} (h : s.Ready) (r : Result) : whenReady s r = r := by
  simp [whenReady, h.1, h.2]

theorem whenReady_eq_next_iff {s t : State} {r : Result} :
    whenReady s r = .next t ↔ s.Ready ∧ r = .next t := by
  unfold whenReady State.Ready
  split
  · split <;> simp [*]
  · simp [*]

theorem whenReady_not_booted {s : State} (hv : configValid s.cfg = true) (hb : s.booted = false) (r : Result) :
    whenReady s r = .refused .beforeReset := by
  simp [whenReady, hv, hb]

theorem whenReady_not_valid {s : State} (hv : configValid s.cfg = false) (r : Result) :
    whenReady s r = .refused .invalidConfiguration := by
  simp [whenReady, hv]

theorem whenAt_of_at {st : DecState} {s : State} (h : s.dec.state = st) (r : Result) : whenAt st s r = r := by
  simp [whenAt, h]

theorem whenAt_eq_next_iff {st : DecState} {s t : State} {r : Result} :
    whenAt st s r = .next t ↔ s.dec.state = st ∧ r = .next t := by
  unfold whenAt
  split <;> simp [*]

theorem step_valid {s t : State} (h : step s = .next t) : configValid s.cfg = true := by
  unfold step at h
  split at h
  · assumption
  · cases h

end Sys2Proof.Machine
end

