-- ==== Sys2Proof/Laws/Allocator.lean ====
section
/-! SUPPORT. The scans of the allocator and what each of its operations can do. -/

namespace Sys2Proof.Machine

/-! ## Scans -/

theorem findKey_eq_some_iff {key : Data7} {vs : List Voice} {i : Nat} : findKey key vs = some i ↔
    ∃ v, vs[i]? = some v ∧ v.currentKey = keyByte key ∧ ∀ j w, j < i → vs[j]? = some w → w.currentKey ≠ keyByte key := by
  unfold findKey
  rw [List.findIdx?_eq_some_iff_getElem]
  constructor
  · rintro ⟨h, hv, hlt⟩
    refine ⟨vs[i], List.getElem?_eq_getElem h, by simpa using hv, fun j w hj hw => ?_⟩
    obtain ⟨hj', rfl⟩ := List.getElem?_eq_some_iff.1 hw
    simpa using hlt j hj
  · rintro ⟨v, hv, hk, hlt⟩
    obtain ⟨h, rfl⟩ := List.getElem?_eq_some_iff.1 hv
    refine ⟨h, by simpa using hk, fun j hj => ?_⟩
    simpa using hlt j _ hj (List.getElem?_eq_getElem (by omega))

theorem findKey_eq_none_iff {key : Data7} {vs : List Voice} :
    findKey key vs = none ↔ ∀ v ∈ vs, v.currentKey ≠ keyByte key := by
  simp [findKey, List.findIdx?_eq_none_iff]

theorem findFree_eq_some_iff {cfg : Config} {vs : List Voice} {i : Nat} : findFree cfg vs = some i ↔
    ∃ v, vs[i]? = some v ∧ v.age = freeAge cfg ∧ ∀ j w, j < i → vs[j]? = some w → w.age ≠ freeAge cfg := by
  unfold findFree
  rw [List.findIdx?_eq_some_iff_getElem]
  constructor
  · rintro ⟨h, hv, hlt⟩
    refine ⟨vs[i], List.getElem?_eq_getElem h, by simpa using hv, fun j w hj hw => ?_⟩
    obtain ⟨hj', rfl⟩ := List.getElem?_eq_some_iff.1 hw
    simpa using hlt j hj
  · rintro ⟨v, hv, hk, hlt⟩
    obtain ⟨h, rfl⟩ := List.getElem?_eq_some_iff.1 hv
    refine ⟨h, by simpa using hk, fun j hj => ?_⟩
    simpa using hlt j _ hj (List.getElem?_eq_getElem (by omega))

theorem findFree_eq_none_iff {cfg : Config} {vs : List Voice} :
    findFree cfg vs = none ↔ ∀ v ∈ vs, v.age ≠ freeAge cfg := by
  simp [findFree, List.findIdx?_eq_none_iff]

/-- The rest of the steal scan returns its candidate, or a later voice of a greater age. -/
theorem stealFrom_lt (vs : List Voice) (j best bestAge : Nat) (h : best < j) :
    stealFrom vs j best bestAge < j + vs.length := by
  induction vs generalizing j best bestAge with
  | nil => simpa [stealFrom] using h
  | cons v vs ih =>
    unfold stealFrom
    split
    · have := ih (j + 1) j v.age (by omega)
      simp only [List.length_cons]; omega
    · have := ih (j + 1) best bestAge (by omega)
      simp only [List.length_cons]; omega

theorem stealScan_lt {vs : List Voice} (h : vs ≠ []) : stealScan vs < vs.length := by
  cases vs with
  | nil => exact absurd rfl h
  | cons v vs =>
    have := stealFrom_lt vs 1 0 v.age (by omega)
    simp only [stealScan, List.length_cons]; omega

@[simp] theorem ageBump_length (cfg : Config) (i : Nat) (vs : List Voice) : (ageBump cfg i vs).length = vs.length := by
  simp [ageBump]

/-- One voice of `age_bump` (44_voice_allocator.md R187). -/
def bumpVoice (cfg : Config) (i j : Nat) (v : Voice) : Voice :=
  if j = i ∨ v.age = freeAge cfg then v else { v with age := min (v.age + 1) (ageMax cfg) }

theorem ageBump_getElem? (cfg : Config) (i j : Nat) (vs : List Voice) :
    (ageBump cfg i vs)[j]? = vs[j]?.map (bumpVoice cfg i j) := by
  simp only [ageBump, List.getElem?_mapIdx]
  rfl

theorem bumpVoice_self (cfg : Config) (i : Nat) (v : Voice) : bumpVoice cfg i i v = v := by simp [bumpVoice]

/-- `age_bump` writes the age alone. -/
theorem bumpVoice_eq (cfg : Config) (i j : Nat) (v : Voice) :
    bumpVoice cfg i j v = { v with age := (bumpVoice cfg i j v).age } := by
  unfold bumpVoice
  split <;> rfl

/-! ## Operations -/

theorem assign_eq_next_iff {i : Nat} {key vel : Data7} {s t : State} : assign i key vel s = .next t ↔
    ∃ v, s.voices[i]? = some v ∧ t = (s.withVoice i (assignVoice s.cfg key vel v)).withEt (assignTones s.et key v) := by
  unfold assign
  cases s.voices[i]? with
  | none => simp
  | some v => simp [eq_comm]

/-- What CMD_NOTE_ON can do (44_voice_allocator.md R180): one of its three branches. -/
theorem noteOn_cases {key vel : Data7} {s t : State} (h : noteOn key vel s = .next t) :
    ∃ i v, s.voices[i]? = some v ∧
      ((s.sounds key = true ∧ findKey key s.voices = some i ∧
          t = (s.withVoice i (assignVoice s.cfg key vel v)).withEt (assignTones s.et key v)) ∨
        (s.sounds key = false ∧ s.numActive < s.cfg.N ∧ findFree s.cfg s.voices = some i ∧
          t = bumpOthers i (((s.withVoice i (assignVoice s.cfg key vel v)).withEt (assignTones s.et key v)).withNumActive
            (s.numActive + 1))) ∨
        (s.sounds key = false ∧ s.cfg.N ≤ s.numActive ∧ stealScan s.voices = i ∧
          t = bumpOthers i ((s.withVoice i (assignVoice s.cfg key vel v)).withEt (assignTones s.et key v)))) := by
  unfold noteOn at h
  split at h
  case isTrue hs =>
    unfold retrigger at h
    split at h
    · cases h
    · rename_i i hi
      obtain ⟨v, hv, rfl⟩ := assign_eq_next_iff.1 h
      exact ⟨i, v, hv, .inl ⟨hs, hi, rfl⟩⟩
  case isFalse hs =>
    have hs : s.sounds key = false := by simpa using hs
    split at h
    case isTrue hn =>
      unfold takeFree at h
      split at h
      · cases h
      · rename_i i hi
        obtain ⟨u, hu, ht⟩ := andThen_eq_next_iff.1 h
        obtain ⟨v, hv, rfl⟩ := assign_eq_next_iff.1 hu
        cases ht
        exact ⟨i, v, hv, .inr (.inl ⟨hs, hn, hi, rfl⟩)⟩
    case isFalse hn =>
      unfold steal at h
      obtain ⟨u, hu, ht⟩ := andThen_eq_next_iff.1 h
      obtain ⟨v, hv, rfl⟩ := assign_eq_next_iff.1 hu
      cases ht
      exact ⟨_, v, hv, .inr (.inr ⟨hs, by omega, rfl, rfl⟩)⟩

/-- What CMD_NOTE_OFF does (44_voice_allocator.md R196): nothing, or the release of a voice that holds the key. -/
theorem noteOffState_cases (key : Data7) (s : State) :
    (findKey key s.voices = none ∧ noteOffState key s = s) ∨
    ∃ i v, findKey key s.voices = some i ∧ s.voices[i]? = some v ∧ v.currentKey = keyByte key ∧
      noteOffState key s = release i key v s := by
  unfold noteOffState
  cases hf : findKey key s.voices with
  | none => exact .inl ⟨rfl, rfl⟩
  | some i =>
    obtain ⟨v, hv, hk, _⟩ := findKey_eq_some_iff.1 hf
    exact .inr ⟨i, v, rfl, hv, hk, by simp [hv]⟩

@[simp] theorem bumpOthers_voices (i : Nat) (s : State) : (bumpOthers i s).voices = ageBump s.cfg i s.voices := rfl
@[simp] theorem bumpOthers_cfg (i : Nat) (s : State) : (bumpOthers i s).cfg = s.cfg := rfl
@[simp] theorem bumpOthers_et (i : Nat) (s : State) : (bumpOthers i s).et = s.et := rfl
@[simp] theorem bumpOthers_numActive (i : Nat) (s : State) : (bumpOthers i s).numActive = s.numActive := rfl
@[simp] theorem bumpOthers_dec (i : Nat) (s : State) : (bumpOthers i s).dec = s.dec := rfl
@[simp] theorem bumpOthers_booted (i : Nat) (s : State) : (bumpOthers i s).booted = s.booted := rfl
@[simp] theorem bumpOthers_draws (i : Nat) (s : State) : (bumpOthers i s).draws = s.draws := rfl
@[simp] theorem bumpOthers_emitted (i : Nat) (s : State) : (bumpOthers i s).emitted = s.emitted := rfl
@[simp] theorem bumpOthers_schedule (i : Nat) (s : State) : (bumpOthers i s).schedule = s.schedule := rfl

/-- The bits of EnabledTones after `assign` (44_voice_allocator.md R190). -/
theorem assignTones_getLsbD (et : BitVec 128) (key j : Data7) (v : Voice) :
    (assignTones et key v).getLsbD j.toNat =
      (decide (j = key) || (et.getLsbD j.toNat && (v.currentKey == noneKey || decide (v.currentKey.toNat ≠ j.toNat)))) := by
  have hj : (key.toNat = j.toNat) ↔ j = key := ⟨fun h => (BitVec.eq_of_toNat_eq h).symm, fun h => h ▸ rfl⟩
  unfold assignTones
  rw [setTone_getLsbD]
  by_cases hv : v.currentKey = noneKey
  · simp [hv, hj]
  · simp [hv, hj, beq_eq_false_iff_ne.2 hv, clearTone_getLsbD, Bool.and_comm]

end Sys2Proof.Machine
end

