-- ==== Sys2Proof/Laws/Invariant.lean ====
section
/-! SUPPORT. The invariants of 10_state.md R32 voice by voice, and that each operation on the register file keeps them. -/

namespace Sys2Proof.Machine

/-- The invariants of one voice on its own. -/
structure VoiceInv (cfg : Config) (v : Voice) : Prop where
  phaseWidth : v.phase < 2 ^ cfg.P ∧ v.increment < 2 ^ cfg.P
  keyRange : v.currentKey = noneKey ∨ v.currentKey.msb = false
  inv4 : v.age = freeAge cfg ↔ v.currentKey = noneKey
  inv5 : v.assigned = true → v.age ≤ ageMax cfg
  pitch : v.assigned = true → v.increment = inc cfg (low7 v.currentKey)
  untorn : cfg.atomicAssign = true → v.torn = false

theorem inv_iff (s : State) : s.Inv ↔ s.voices.length = s.cfg.N ∧ (∀ v ∈ s.voices, VoiceInv s.cfg v) ∧
    (s.voices.Pairwise fun a b => a.currentKey = b.currentKey → a.currentKey = noneKey) ∧
    (∀ key : Data7, s.sounds key = true ↔ ∃ v ∈ s.voices, v.currentKey = keyByte key) ∧
    s.numActive = s.voices.countP Voice.assigned ∧ s.numActive ≤ s.cfg.N := by
  constructor
  · intro h
    exact ⟨h.voiceCount, fun v hv => ⟨h.phaseWidth v hv, h.keyRange v hv, h.inv4 v hv, h.inv5 v hv, h.pitch v hv,
      fun ha => h.untorn ha v hv⟩, h.inv1, h.inv2, h.inv3⟩
  · rintro ⟨h1, h2, h3, h4, h5⟩
    exact ⟨h1, fun v hv => (h2 v hv).1, fun v hv => (h2 v hv).2, h3, h4, h5, fun v hv => (h2 v hv).3,
      fun v hv => (h2 v hv).4, fun v hv => (h2 v hv).5, fun ha v hv => (h2 v hv).6 ha⟩

theorem assigned_iff {v : Voice} : v.assigned = true ↔ v.currentKey ≠ noneKey := by simp [Voice.assigned]

theorem assignVoice_inv {cfg : Config} {key vel : Data7} {v : Voice} (hc : configValid cfg = true)
    (h : VoiceInv cfg v) : VoiceInv cfg (assignVoice cfg key vel v) := by
  refine ⟨⟨h.phaseWidth.1, inc_lt hc key⟩, .inr (keyByte_msb key), ?_, fun _ => Nat.zero_le _, fun _ => ?_, fun ha => ?_⟩
  · simp [assignVoice, zero_ne_freeAge hc]
  · simp [assignVoice]
  · simp [assignVoice, ha, h.untorn ha]

theorem releaseVoice_inv {cfg : Config} {v : Voice} (h : VoiceInv cfg v) : VoiceInv cfg (releaseVoice cfg v) := by
  refine ⟨h.phaseWidth, .inl rfl, by simp [releaseVoice], ?_, ?_, h.untorn⟩ <;> simp [releaseVoice, Voice.assigned]

theorem bumpVoice_inv {cfg : Config} {i j : Nat} {v : Voice} (hc : configValid cfg = true) (h : VoiceInv cfg v) :
    VoiceInv cfg (bumpVoice cfg i j v) := by
  unfold bumpVoice
  split
  · exact h
  · rename_i hn
    have hm := ageMax_lt_freeAge hc
    have ha : v.age ≠ freeAge cfg := fun e => hn (.inr e)
    refine ⟨h.phaseWidth, h.keyRange, ?_, fun _ => Nat.min_le_right _ _, h.pitch, h.untorn⟩
    have : v.currentKey ≠ noneKey := fun e => ha (h.inv4.2 e)
    simp only [this, iff_false]
    omega

theorem pairwise_set {vs : List Voice} {i : Nat} {v : Voice}
    (h : vs.Pairwise fun a b => a.currentKey = b.currentKey → a.currentKey = noneKey)
    (hv : ∀ j w, j ≠ i → vs[j]? = some w → w.currentKey = v.currentKey → v.currentKey = noneKey) :
    (vs.set i v).Pairwise fun a b => a.currentKey = b.currentKey → a.currentKey = noneKey := by
  rw [List.pairwise_iff_getElem] at h ⊢
  intro a b ha hb hab
  have ha' : a < vs.length := by simpa using ha
  have hb' : b < vs.length := by simpa using hb
  simp only [List.getElem_set]
  by_cases h1 : i = a
  · have h2 : i ≠ b := by omega
    simp only [h1, if_true, if_neg (h1 ▸ h2)]
    intro e
    exact hv b _ (by omega) (List.getElem?_eq_getElem hb') e.symm
  · by_cases h2 : i = b
    · subst h2
      simp only [if_neg h1, if_true]
      intro e
      rw [e]
      exact hv a _ (by omega) (List.getElem?_eq_getElem ha') e
    · simp only [h1, h2, if_false]
      exact h a b ha' hb' hab

theorem countP_set_some {vs : List Voice} {i : Nat} {v w : Voice} (h : vs[i]? = some w) :
    (vs.set i v).countP Voice.assigned + (if w.assigned then 1 else 0) =
      vs.countP Voice.assigned + (if v.assigned then 1 else 0) := by
  obtain ⟨hi, rfl⟩ := List.getElem?_eq_some_iff.1 h
  rw [List.countP_set hi]
  split
  · have : 0 < vs.countP Voice.assigned := List.countP_pos_iff.2 ⟨_, List.getElem_mem hi, by assumption⟩
    omega
  · omega

/-- A voice that holds a key is the only one (INV1). -/
theorem Inv.key_unique {s : State} (h : s.Inv) {i j : Nat} {v w : Voice} (hv : s.voices[i]? = some v)
    (hw : s.voices[j]? = some w) (e : v.currentKey = w.currentKey) (hn : v.currentKey ≠ noneKey) : i = j := by
  have hp := List.pairwise_iff_getElem.1 h.inv1
  obtain ⟨hi, rfl⟩ := List.getElem?_eq_some_iff.1 hv
  obtain ⟨hj, rfl⟩ := List.getElem?_eq_some_iff.1 hw
  rcases Nat.lt_trichotomy i j with hij | hij | hij
  · exact absurd (hp i j hi hj hij e) hn
  · exact hij
  · exact absurd (hp j i hj hi hij e.symm) (e ▸ hn)

/-- `assign` to a voice, of a key that no other voice holds, keeps the invariants of the register file and EnabledTones. -/
theorem assign_core {s : State} (hc : configValid s.cfg = true) (h : s.Inv) {i : Nat} {v : Voice} {key vel : Data7}
    (hv : s.voices[i]? = some v) (hk : ∀ j w, j ≠ i → s.voices[j]? = some w → w.currentKey ≠ keyByte key) :
    let vs := s.voices.set i (assignVoice s.cfg key vel v)
    vs.length = s.cfg.N ∧ (∀ w ∈ vs, VoiceInv s.cfg w) ∧
    (vs.Pairwise fun a b => a.currentKey = b.currentKey → a.currentKey = noneKey) ∧
    (∀ k : Data7, (assignTones s.et key v).getLsbD k.toNat = true ↔ ∃ w ∈ vs, w.currentKey = keyByte k) ∧
    vs.countP Voice.assigned + (if v.assigned then 1 else 0) = s.numActive + 1 := by
  intro vs
  have hi := (List.getElem?_eq_some_iff.1 hv).1
  have h' := (inv_iff s).1 h
  have hmem := List.mem_of_getElem? hv
  refine ⟨by simp [vs, h.voiceCount], ?_, ?_, ?_, ?_⟩
  · intro w hw
    rcases List.mem_or_eq_of_mem_set hw with hw | rfl
    · exact h'.2.1 w hw
    · exact assignVoice_inv hc (h'.2.1 v hmem)
  · exact pairwise_set h.inv1 fun j w hj hw e => absurd e (hk j w hj hw)
  · intro k
    rw [assignTones_getLsbD]
    have hs := h.inv2 k
    unfold State.sounds at hs
    have key_eq : ∀ b : Byte, ∀ k : Data7, b.msb = false → (b.toNat = k.toNat ↔ b = keyByte k) := by
      intro b k _
      constructor
      · intro e; apply BitVec.eq_of_toNat_eq; simpa using e
      · rintro rfl; simp
    constructor
    · intro hb
      by_cases hkk : k = key
      · exact ⟨_, List.mem_set hi _, by simp [assignVoice, hkk]⟩
      · simp only [hkk, decide_false, Bool.false_or, Bool.and_eq_true, Bool.or_eq_true, beq_iff_eq, decide_eq_true_eq] at hb
        obtain ⟨w, hw, hwk⟩ := hs.1 hb.1
        obtain ⟨j, hj⟩ := List.mem_iff_getElem?.1 hw
        have hji : i ≠ j := by
          rintro rfl
          rw [hv] at hj; cases hj
          rcases hb.2 with e | e
          · simp [e] at hwk
          · exact e (by simp [hwk])
        exact ⟨w, List.mem_iff_getElem?.2 ⟨j, by simpa [vs, List.getElem?_set, hji] using hj⟩, hwk⟩
    · rintro ⟨w, hw, hwk⟩
      obtain ⟨j, hj⟩ := List.mem_iff_getElem?.1 hw
      by_cases hij : i = j
      · subst hij
        rw [List.getElem?_set_self hi] at hj; cases hj
        have : key = k := keyByte_inj.1 (by simpa [assignVoice] using hwk)
        simp [this]
      · rw [List.getElem?_set_ne hij] at hj
        have h1 := hs.2 ⟨w, List.mem_of_getElem? hj, hwk⟩
        by_cases hkk : k = key
        · simp [hkk]
        · simp only [hkk, decide_false, Bool.false_or, h1, Bool.true_and, Bool.or_eq_true, beq_iff_eq, decide_eq_true_eq]
          by_cases hn : v.currentKey = noneKey
          · exact .inl hn
          · refine .inr fun e => hij (Inv.key_unique h hv hj ?_ hn)
            rw [hwk]; apply BitVec.eq_of_toNat_eq; simpa using e
  · have := countP_set_some (v := assignVoice s.cfg key vel v) hv
    have ha : (assignVoice s.cfg key vel v).assigned = true := by simp [Voice.assigned, assignVoice]
    rw [ha] at this
    rw [h.inv3.1]
    simpa using this

/-- `age_bump` keeps them. -/
theorem bump_core {cfg : Config} {i : Nat} {vs : List Voice} (hc : configValid cfg = true) :
    (∀ w ∈ vs, VoiceInv cfg w) → (∀ w ∈ ageBump cfg i vs, VoiceInv cfg w) := by
  intro h w hw
  obtain ⟨j, hj⟩ := List.mem_iff_getElem?.1 hw
  rw [ageBump_getElem?] at hj
  obtain ⟨u, hu, rfl⟩ := Option.map_eq_some_iff.1 hj
  exact bumpVoice_inv hc (h u (List.mem_of_getElem? hu))

theorem bump_keys (cfg : Config) (i : Nat) (vs : List Voice) :
    (ageBump cfg i vs).map Voice.currentKey = vs.map Voice.currentKey := by
  apply List.ext_getElem?
  intro j
  simp only [List.getElem?_map, ageBump_getElem?, Option.map_map]
  congr 1; funext v
  simp only [Function.comp]; rw [bumpVoice_eq]

theorem pairwise_of_keys {vs ws : List Voice} (e : ws.map Voice.currentKey = vs.map Voice.currentKey)
    (h : vs.Pairwise fun a b => a.currentKey = b.currentKey → a.currentKey = noneKey) :
    ws.Pairwise fun a b => a.currentKey = b.currentKey → a.currentKey = noneKey := by
  have h2 := (List.pairwise_map (f := Voice.currentKey) (R := fun a b => a = b → a = noneKey) (l := vs)).2 h
  rw [← e] at h2
  exact List.pairwise_map.1 h2

theorem exists_key_of_keys {vs ws : List Voice} (e : ws.map Voice.currentKey = vs.map Voice.currentKey) (b : Byte) :
    (∃ w ∈ ws, w.currentKey = b) ↔ ∃ w ∈ vs, w.currentKey = b := by
  rw [← List.mem_map, ← List.mem_map, e]

theorem countP_of_keys {vs ws : List Voice} (e : ws.map Voice.currentKey = vs.map Voice.currentKey) :
    ws.countP Voice.assigned = vs.countP Voice.assigned := by
  have : ∀ l : List Voice, l.countP Voice.assigned = (l.map Voice.currentKey).countP (· != noneKey) := by
    intro l; rw [List.countP_map]; rfl
  rw [this, this, e]

theorem noteOn_inv {s t : State} {key vel : Data7} (hc : configValid s.cfg = true) (h : s.Inv)
    (hn : noteOn key vel s = .next t) : t.Inv := by
  obtain ⟨i, v, hv, hcase⟩ := noteOn_cases hn
  have hN := lt_two_pow_activeWidth s.cfg
  rcases hcase with ⟨hs, hf, rfl⟩ | ⟨hs, hlt, hf, rfl⟩ | ⟨hs, hge, hf, rfl⟩
  · obtain ⟨v', hv', hk', _⟩ := findKey_eq_some_iff.1 hf
    rw [hv] at hv'; cases hv'
    obtain ⟨h1, h2, h3, h4, h5⟩ := assign_core (vel := vel) hc h hv (key := key) fun j w hj hw e =>
      hj (Inv.key_unique h hw hv (by rw [e, hk']) (by simp [e]))
    have ha : v.assigned = true := by simp [Voice.assigned, hk']
    rw [inv_iff]
    simp only [ha, if_true] at h5
    exact ⟨h1, h2, h3, h4, by simp; omega, h.inv3.2⟩
  · obtain ⟨v', hv', ha', _⟩ := findFree_eq_some_iff.1 hf
    rw [hv] at hv'; cases hv'
    have hno : ∀ w ∈ s.voices, w.currentKey ≠ keyByte key := fun w hw e => by
      have := (h.inv2 key).2 ⟨w, hw, e⟩; simp [hs] at this
    obtain ⟨h1, h2, h3, h4, h5⟩ := assign_core (vel := vel) hc h hv (key := key) fun j w hj hw => hno w (List.mem_of_getElem? hw)
    have ha : v.assigned = false := by simpa [Voice.assigned] using (h.inv4 v (List.mem_of_getElem? hv)).1 ha'
    rw [inv_iff]
    simp only [ha] at h5
    have e := bump_keys s.cfg i (s.voices.set i (assignVoice s.cfg key vel v))
    refine ⟨by simpa using h1, by simpa using bump_core hc h2, by simpa using pairwise_of_keys e h3, ?_, ?_, ?_⟩
    · intro k
      simp only [bumpOthers_voices, withNumActive_voices, withEt_voices, withVoice_voices, withNumActive_cfg, withEt_cfg, withVoice_cfg]
      rw [exists_key_of_keys e]
      exact h4 k
    · have := countP_of_keys e
      simp only [bumpOthers_numActive, withNumActive_numActive, withEt_cfg, withVoice_cfg, bumpOthers_voices,
        withNumActive_voices, withEt_voices, withVoice_voices, withNumActive_cfg]
      rw [this, Nat.mod_eq_of_lt (by omega)]
      simpa using h5.symm
    · simp only [bumpOthers_numActive, withNumActive_numActive, withEt_cfg, withVoice_cfg, bumpOthers_cfg, withNumActive_cfg]
      rw [Nat.mod_eq_of_lt (by omega)]; omega
  · have hno : ∀ w ∈ s.voices, w.currentKey ≠ keyByte key := fun w hw e => by
      have := (h.inv2 key).2 ⟨w, hw, e⟩; simp [hs] at this
    obtain ⟨h1, h2, h3, h4, h5⟩ := assign_core (vel := vel) hc h hv (key := key) fun j w hj hw => hno w (List.mem_of_getElem? hw)
    have hfull : s.numActive = s.cfg.N := le_antisymm h.inv3.2 hge
    have ha : v.assigned = true := by
      have : s.voices.countP Voice.assigned = s.voices.length := by rw [← h.inv3.1, hfull, h.voiceCount]
      exact List.countP_eq_length.1 this v (List.mem_of_getElem? hv)
    rw [inv_iff]
    simp only [ha] at h5
    have e := bump_keys s.cfg i (s.voices.set i (assignVoice s.cfg key vel v))
    refine ⟨by simpa using h1, by simpa using bump_core hc h2, by simpa using pairwise_of_keys e h3, ?_, ?_, ?_⟩
    · intro k
      simp only [bumpOthers_voices, withEt_voices, withVoice_voices, withEt_cfg, withVoice_cfg]
      rw [exists_key_of_keys e]
      exact h4 k
    · have := countP_of_keys e
      simp only [bumpOthers_numActive, withEt_cfg, withVoice_cfg, bumpOthers_voices,
        withEt_voices, withVoice_voices, withEt_numActive, withVoice_numActive]
      rw [this]
      simpa using h5.symm
    · exact h.inv3.2

/-- INV3 and INV4: with a free place a free voice exists. -/
theorem exists_free {s : State} (h : s.Inv) (hn : s.numActive < s.cfg.N) : ∃ i, findFree s.cfg s.voices = some i := by
  cases hf : findFree s.cfg s.voices with
  | some i => exact ⟨i, rfl⟩
  | none =>
    have hall := findFree_eq_none_iff.1 hf
    have : s.voices.countP Voice.assigned = s.voices.length := List.countP_eq_length.2 fun v hv =>
      assigned_iff.2 fun e => hall v hv ((h.inv4 v hv).2 e)
    rw [← h.inv3.1, h.voiceCount] at this
    omega

theorem exists_key {s : State} (h : s.Inv) {key : Data7} (hs : s.sounds key = true) :
    ∃ i, findKey key s.voices = some i := by
  cases hf : findKey key s.voices with
  | some i => exact ⟨i, rfl⟩
  | none =>
    obtain ⟨v, hv, e⟩ := (h.inv2 key).1 hs
    exact absurd e (findKey_eq_none_iff.1 hf v hv)

theorem noteOn_completes {s : State} (hc : configValid s.cfg = true) (h : s.Inv) (key vel : Data7) :
    ∃ t, noteOn key vel s = .next t := by
  have hN := valid_N hc
  unfold noteOn
  split
  · obtain ⟨i, hi⟩ := exists_key h ‹_›
    obtain ⟨v, hv, _⟩ := findKey_eq_some_iff.1 hi
    exact ⟨_, by simp only [retrigger, hi]; exact assign_eq_next_iff.2 ⟨v, hv, rfl⟩⟩
  · split
    · obtain ⟨i, hi⟩ := exists_free h ‹_›
      obtain ⟨v, hv, _⟩ := findFree_eq_some_iff.1 hi
      exact ⟨_, by simp only [takeFree, hi]; exact andThen_eq_next_iff.2 ⟨_, assign_eq_next_iff.2 ⟨v, hv, rfl⟩, rfl⟩⟩
    · have hlt : stealScan s.voices < s.voices.length := stealScan_lt (by
        intro e; have := h.voiceCount; simp [e] at this; omega)
      exact ⟨_, andThen_eq_next_iff.2 ⟨_, assign_eq_next_iff.2 ⟨_, List.getElem?_eq_getElem hlt, rfl⟩, rfl⟩⟩

theorem noteOff_inv {s : State} {key : Data7} (h : s.Inv) :
    (noteOffState key s).Inv := by
  rcases noteOffState_cases key s with ⟨_, e⟩ | ⟨i, v, hf, hv, hk, e⟩
  · rw [e]; exact h
  · rw [e, inv_iff]
    have hi := (List.getElem?_eq_some_iff.1 hv).1
    have h' := (inv_iff s).1 h
    have hmem := List.mem_of_getElem? hv
    have ha : v.assigned = true := by simp [Voice.assigned, hk]
    have hcnt := countP_set_some (v := releaseVoice s.cfg v) hv
    have hr : (releaseVoice s.cfg v).assigned = false := by simp [Voice.assigned, releaseVoice]
    have hN := lt_two_pow_activeWidth s.cfg
    have hle := h.inv3.2
    have hact := h.inv3.1
    simp only [ha, hr, if_true] at hcnt
    have hnum : (s.numActive + (2 ^ activeWidth s.cfg - 1)) % 2 ^ activeWidth s.cfg = s.numActive - 1 := by
      have : s.numActive + (2 ^ activeWidth s.cfg - 1) = (s.numActive - 1) + 2 ^ activeWidth s.cfg := by
        simp at hcnt; omega
      rw [this, Nat.add_mod_right, Nat.mod_eq_of_lt (by omega)]
    simp only [release, withNumActive_voices, withNumActive_cfg, withNumActive_numActive, withEt_voices, withEt_cfg,
      withVoice_voices, withVoice_cfg, hnum]
    refine ⟨by simp [h.voiceCount], ?_, ?_, ?_, ?_, by omega⟩
    · intro w hw
      rcases List.mem_or_eq_of_mem_set hw with hw | rfl
      · exact h'.2.1 w hw
      · exact releaseVoice_inv (h'.2.1 v hmem)
    · exact pairwise_set h.inv1 fun j w hj hw e => by simp [releaseVoice]
    · intro k
      have hs := h.inv2 k
      unfold State.sounds at hs ⊢
      rw [withNumActive_et, withEt_et, clearTone_getLsbD]
      simp only [Bool.and_eq_true, decide_eq_true_eq, hs]
      constructor
      · rintro ⟨hne, w, hw, hwk⟩
        obtain ⟨j, hj⟩ := List.mem_iff_getElem?.1 hw
        have hij : i ≠ j := by
          rintro rfl
          rw [hv] at hj; cases hj
          exact hne (by rw [← keyByte_toNat key, ← keyByte_toNat k, ← hk, hwk])
        exact ⟨w, List.mem_iff_getElem?.2 ⟨j, by simpa [List.getElem?_set, hij] using hj⟩, hwk⟩
      · rintro ⟨w, hw, hwk⟩
        obtain ⟨j, hj⟩ := List.mem_iff_getElem?.1 hw
        by_cases hij : i = j
        · subst hij
          rw [List.getElem?_set_self hi] at hj; cases hj
          simp [releaseVoice] at hwk
        · rw [List.getElem?_set_ne hij] at hj
          refine ⟨fun e => hij (Inv.key_unique h hv hj ?_ (by simp [hk])), w, List.mem_of_getElem? hj, hwk⟩
          rw [hk, hwk, keyByte_inj]; exact BitVec.eq_of_toNat_eq e
    · simp at hcnt; omega

theorem tick_inv {s : State} (h : s.Inv) : (tickState s).Inv := by
  have h' := (inv_iff s).1 h
  have e : (tickVoices s.cfg s.draws s.voices).map Voice.currentKey = s.voices.map Voice.currentKey := by
    apply List.ext_getElem?
    intro j
    simp only [tickVoices, List.getElem?_map, List.getElem?_mapIdx, Option.map_map]
    rfl
  rw [inv_iff]
  simp only [tickState_voices, tickState_cfg, tickState_numActive]
  refine ⟨by simp [tickVoices, h.voiceCount], ?_, pairwise_of_keys e h.inv1, ?_, ?_, h.inv3.2⟩
  · intro w hw
    obtain ⟨j, hj⟩ := List.mem_iff_getElem?.1 hw
    simp only [tickVoices, List.getElem?_mapIdx] at hj
    obtain ⟨v, hv, rfl⟩ := Option.map_eq_some_iff.1 hj
    obtain ⟨a, b, c, d, f, g⟩ := h'.2.1 v (List.mem_of_getElem? hv)
    refine ⟨⟨Nat.mod_lt _ (Nat.two_pow_pos _), a.2⟩, b, c, d, f, fun ha => ?_⟩
    simp [tickVoice, g ha]
  · intro k
    rw [exists_key_of_keys e]
    exact h.inv2 k
  · rw [countP_of_keys e, h.inv3.1]

end Sys2Proof.Machine
end

