-- ==== Sys2Proof/Laws/Tick.lean ====
section
/-! SUPPORT. What a TICK does to one voice, and the arithmetic of the duty value. -/

namespace Sys2Proof.Machine

theorem execTick_eq_next_iff {s t : State} : execTick s = .next t ↔ s.Ready ∧ t = tickState s := by
  rw [execTick, whenReady_eq_next_iff]
  simp [eq_comm]

@[simp] theorem tickVoices_length (cfg : Config) (n : Nat) (vs : List Voice) :
    (tickVoices cfg n vs).length = vs.length := by simp [tickVoices]

theorem tickVoices_getElem? (cfg : Config) (n i : Nat) (vs : List Voice) :
    (tickVoices cfg n vs)[i]? = vs[i]?.map (tickVoice cfg n i) := by
  simp [tickVoices, List.getElem?_mapIdx]

/-- A voice that is not read torn steps on its stored increment and target (41_phase_accumulator.md R124). -/
theorem tickVoice_of_not_torn {cfg : Config} {v : Voice} (h : readsTorn cfg v = false) (n i : Nat) :
    tickVoice cfg n i v = stepVoice cfg v.increment v.targetVolume v := by
  simp [tickVoice, tickIncrement, tickTarget, h, stepVoice]

/-- The product of a volume and a sample fits in 16 bits, so the duty is exact (43_pwm_duty_gen.md R160, R161). -/
theorem dutyOf_toNat (vol : Byte) (sample : BitVec 8) :
    ((dutyOf vol sample).toNat : Int) = (vol.toNat : Int) * sample.toInt / 256 + 128 := by
  have h1 : vol.toNat < 256 := vol.isLt
  have h2 := BitVec.toInt_lt (x := sample)
  have h3 := BitVec.le_toInt (x := sample)
  have hlo : -32640 ≤ (vol.toNat : Int) * sample.toInt := by norm_num at h2 h3; nlinarith
  have hhi : (vol.toNat : Int) * sample.toInt ≤ 32385 := by norm_num at h2 h3; nlinarith
  have hp : (vol.zeroExtend 16 * sample.signExtend 16).toInt = (vol.toNat : Int) * sample.toInt := by
    have hv : (vol.zeroExtend 16).toInt = vol.toNat := by
      rw [BitVec.toInt_eq_toNat_of_lt] <;> simp <;> omega
    rw [BitVec.toInt_mul, BitVec.toInt_signExtend_of_le (by omega), hv]
    exact Int.bmod_eq_of_le (by norm_num; omega) (by norm_num; omega)
  have hx : ∀ b : BitVec 8, ((bias ^^^ b).toNat : Int) = b.toInt + 128 := by decide
  unfold dutyOf
  rw [hx]
  have hs : ((vol.zeroExtend 16 * sample.signExtend 16).sshiftRight 8).toInt = (vol.toNat : Int) * sample.toInt / 256 := by
    rw [BitVec.toInt_sshiftRight, hp, Int.shiftRight_eq_div_pow]
    norm_num
  have hq : ∀ x : BitVec 16, -128 ≤ x.toInt → x.toInt < 128 → (x.truncate 8).toInt = x.toInt := by
    intro x hl hu
    have hx := x.isLt
    rw [BitVec.truncate_eq_setWidth, BitVec.toInt_setWidth, Int.bmod_def]
    rw [BitVec.toInt_eq_toNat_cond] at *
    norm_num at *
    split at hl <;> split at hu <;> split <;> simp_all <;> omega
  rw [hq _ (by rw [hs]; omega) (by rw [hs]; omega), hs]

end Sys2Proof.Machine
end

