-- ==== Sys2Proof/Laws/Frame.lean ====
section
/-! SUPPORT. What each operation can write, voice registers and the rest, and that none stops where the invariants hold;
runs of ticks and of the host. -/

namespace Sys2Proof.Machine

/-- A message row acts by its three bytes alone. -/
theorem exec_msg {i : Instr} {b k v : Byte} (h : encode i = .message b k v) (s : State) :
    exec i s = receiveMessage b k v s := by
  cases i <;> simp only [encode, Input.message.injEq, reduceCtorEq] at h
  all_goals (obtain ⟨rfl, rfl, rfl⟩ := h; rfl)

theorem exec_on {s : State} (hr : s.Ready) (a b) : exec (.cmdNoteOn a b) s = noteOn a b s := by
  simp [exec, execCmdNoteOn, whenReady_of_ready hr]

theorem exec_off {s : State} (hr : s.Ready) (a b) : exec (.cmdNoteOff a b) s = .next (noteOffState a s) := by
  simp [exec, execCmdNoteOff, whenReady_of_ready hr, noteOff]

theorem exec_param2 {s : State} {v : Byte} (hr : s.Ready) (h : s.dec.state = .readParam2) :
    exec (.rxParam2 v) s = dispatch s.dec.kind s.dec.key v (endMessage s) := by
  simp [exec, execRxParam2, whenReady_of_ready hr, whenAt, h, finishMessage]

theorem tick_iff {s t : State} : exec .tick s = .next t ↔ s.Ready ∧ t = tickState s := execTick_eq_next_iff

theorem inv_withDec {s : State} (h : s.Inv) (d : Decoder) : (s.withDec d).Inv := by
  rw [inv_iff] at *; exact h

theorem inv_withSchedule {s : State} (h : s.Inv) (es) : (s.withSchedule es).Inv := by
  rw [inv_iff] at *; exact h

/-- What CMD_NOTE_ON can write (10_state.md R29). -/
theorem noteOn_frame {s t : State} {key vel : Data7} (h : noteOn key vel s = .next t) :
    t = { s with voices := t.voices, et := t.et, numActive := t.numActive } ∧
    t.voices.map Voice.tickPart = s.voices.map Voice.tickPart := by
  obtain ⟨i, v, hv, hc⟩ := noteOn_cases h
  have hset : (s.voices.set i (assignVoice s.cfg key vel v)).map Voice.tickPart = s.voices.map Voice.tickPart := by
    apply List.ext_getElem?
    intro j
    simp only [List.getElem?_map, List.getElem?_set]
    split
    · subst_vars
      split
      · simp [hv, assignVoice, Voice.tickPart]
      · simp_all
    · rfl
  have hb : ∀ vs : List Voice, (ageBump s.cfg i vs).map Voice.tickPart = vs.map Voice.tickPart := by
    intro vs
    apply List.ext_getElem?; intro j
    simp only [List.getElem?_map, ageBump_getElem?, Option.map_map]
    congr 1; funext v; simp only [Function.comp]; rw [bumpVoice_eq]; rfl
  rcases hc with ⟨_, _, rfl⟩ | ⟨_, _, _, rfl⟩ | ⟨_, _, _, rfl⟩
  · exact ⟨rfl, hset⟩
  · exact ⟨rfl, (hb _).trans hset⟩
  · exact ⟨rfl, (hb _).trans hset⟩

/-- What CMD_NOTE_OFF can write (10_state.md R29). -/
theorem noteOff_frame (key : Data7) (s : State) :
    noteOffState key s = { s with
      voices := (noteOffState key s).voices, et := (noteOffState key s).et, numActive := (noteOffState key s).numActive } ∧
    (noteOffState key s).voices.map Voice.tickPart = s.voices.map Voice.tickPart := by
  rcases noteOffState_cases key s with ⟨_, e⟩ | ⟨i, v, hf, hv, hk, e⟩
  · rw [e]; exact ⟨rfl, rfl⟩
  · rw [e]; refine ⟨rfl, ?_⟩
    apply List.ext_getElem?
    intro j
    simp only [release, withNumActive_voices, withEt_voices, withVoice_voices, List.getElem?_map, List.getElem?_set]
    split
    · subst_vars
      split
      · simp [hv, releaseVoice, Voice.tickPart]
      · simp_all
    · rfl

/-- The three outcomes of a dispatch (45_midi_decoder.md R224). -/
theorem dispatch_cases {kind k v s} {t : State} (h : dispatch kind k v s = .next t) :
    t = s ∨ (∃ a b, noteOn a b s = .next t) ∨ ∃ a, t = noteOffState a s := by
  unfold dispatch at h
  split at h
  · cases h; exact .inl rfl
  · cases kind <;> simp only at h
    · cases h; exact .inr (.inr ⟨_, rfl⟩)
    · split at h
      · cases h; exact .inr (.inr ⟨_, rfl⟩)
      · exact .inr (.inl ⟨_, _, h⟩)
    · cases h; exact .inl rfl

/-- A dispatch never stops where the invariants hold. -/
theorem dispatch_next {s : State} (hc : configValid s.cfg = true) (hi : s.Inv) (kind : Kind) (k v : Byte) :
    ∃ t, dispatch kind k v s = .next t ∧ t.Inv := by
  have key : ∃ t, dispatch kind k v s = .next t := by
    unfold dispatch
    split
    · exact ⟨_, rfl⟩
    · cases kind <;> simp only
      · exact ⟨_, rfl⟩
      · split
        · exact ⟨_, rfl⟩
        · exact noteOn_completes hc hi _ _
      · exact ⟨_, rfl⟩
  obtain ⟨t, ht⟩ := key
  refine ⟨t, ht, ?_⟩
  rcases dispatch_cases ht with rfl | ⟨a, b, h⟩ | ⟨a, rfl⟩
  · exact hi
  · exact noteOn_inv hc hi h
  · exact noteOff_inv hi

/-- What a dispatch can write. -/
theorem dispatch_frame {kind k v s} {t : State} (h : dispatch kind k v s = .next t) :
    t = { s with voices := t.voices, et := t.et, numActive := t.numActive } ∧
    t.voices.map Voice.tickPart = s.voices.map Voice.tickPart := by
  rcases dispatch_cases h with rfl | ⟨a, b, h⟩ | ⟨a, rfl⟩
  · exact ⟨rfl, rfl⟩
  · exact noteOn_frame h
  · exact noteOff_frame a s

/-- What a received byte can write. -/
theorem rx_frame {b : Byte} {s t : State} (h : rxByte b s = .next t) :
    t = { s with voices := t.voices, et := t.et, numActive := t.numActive, dec := t.dec } ∧
    t.voices.map Voice.tickPart = s.voices.map Voice.tickPart := by
  unfold rxByte at h
  split at h
  · cases h; split <;> exact ⟨rfl, rfl⟩
  · cases h
  · cases h; exact ⟨rfl, rfl⟩
  · obtain ⟨h1, h2⟩ := dispatch_frame h
    have hd := congrArg State.dec h1
    refine ⟨?_, h2⟩
    rw [h1]; rfl

theorem settle_frame (s : State) : settle s = { s with dec := (settle s).dec } := by
  unfold settle; split <;> rfl

/-- What a received byte and the DECODE after it can write. -/
theorem receive_frame {b : Byte} {s t : State} (h : receive b s = .next t) :
    t = { s with voices := t.voices, et := t.et, numActive := t.numActive, dec := t.dec } ∧
    t.voices.map Voice.tickPart = s.voices.map Voice.tickPart := by
  obtain ⟨u, hu, ht⟩ := andThen_eq_next_iff.1 h
  cases ht
  obtain ⟨h1, h2⟩ := rx_frame hu
  have e2 := settle_frame s
  have e3 := settle_frame u
  constructor
  · rw [e3, h1, e2]
  · rw [show (settle u).voices = u.voices by rw [e3], h2, show (settle s).voices = s.voices by rw [e2]]

/-- What a message can write. -/
theorem message_frame {b k v : Byte} {s t : State} (h : receiveMessage b k v s = .next t) :
    t = { s with voices := t.voices, et := t.et, numActive := t.numActive, dec := t.dec } ∧
    t.voices.map Voice.tickPart = s.voices.map Voice.tickPart := by
  obtain ⟨_, h⟩ := whenReady_eq_next_iff.1 h
  obtain ⟨u, hu, h⟩ := andThen_eq_next_iff.1 h
  obtain ⟨w, hw, h⟩ := andThen_eq_next_iff.1 h
  obtain ⟨a1, a2⟩ := receive_frame hu
  obtain ⟨b1, b2⟩ := receive_frame hw
  obtain ⟨c1, c2⟩ := receive_frame h
  exact ⟨by rw [c1, b1, a1], by rw [c2, b2, a2]⟩

/-- What an operation of the foreground agent can write (10_state.md R29). -/
theorem foreground_frame {i : Instr} {s t : State} (h1 : i ≠ .tick) (h2 : i ≠ .reset) (h : exec i s = .next t) :
    t = { s with voices := t.voices, et := t.et, numActive := t.numActive, dec := t.dec } ∧
    t.voices.map Voice.tickPart = s.voices.map Voice.tickPart := by
  cases i with
  | tick => exact absurd rfl h1
  | reset => exact absurd rfl h2
  | rxSeekData d =>
    obtain ⟨_, h⟩ := whenReady_eq_next_iff.1 h
    obtain ⟨_, h⟩ := whenAt_eq_next_iff.1 h
    cases h; exact ⟨rfl, rfl⟩
  | rxSeekStatus c h' =>
    obtain ⟨_, h⟩ := whenReady_eq_next_iff.1 h
    obtain ⟨_, h⟩ := whenAt_eq_next_iff.1 h
    cases h; exact ⟨rfl, rfl⟩
  | decode =>
    obtain ⟨_, h⟩ := whenReady_eq_next_iff.1 h
    obtain ⟨_, h⟩ := whenAt_eq_next_iff.1 h
    cases h; exact ⟨rfl, rfl⟩
  | rxParam1 c =>
    obtain ⟨_, h⟩ := whenReady_eq_next_iff.1 h
    obtain ⟨_, h⟩ := whenAt_eq_next_iff.1 h
    cases h; exact ⟨rfl, rfl⟩
  | rxParam2 c =>
    obtain ⟨_, h⟩ := whenReady_eq_next_iff.1 h
    obtain ⟨_, h⟩ := whenAt_eq_next_iff.1 h
    obtain ⟨h1, h2⟩ := dispatch_frame h
    exact ⟨by rw [h1]; rfl, h2⟩
  | cmdNoteOn k v =>
    obtain ⟨_, h⟩ := whenReady_eq_next_iff.1 h
    obtain ⟨h1, h2⟩ := noteOn_frame h
    exact ⟨by rw [h1], h2⟩
  | cmdNoteOff k v =>
    obtain ⟨_, h⟩ := whenReady_eq_next_iff.1 h
    cases h
    obtain ⟨h1, h2⟩ := noteOff_frame k s
    exact ⟨by rw [h1], h2⟩
  | msgNoteOff _ _ _ => exact message_frame h
  | msgNoteOn _ _ _ => exact message_frame h
  | msgNoteOnV0 _ _ => exact message_frame h
  | msgNotServiced _ _ _ _ => exact message_frame h
  | msgKeyBit7 _ _ _ _ => exact message_frame h
  | msgVelBit7 _ _ _ _ => exact message_frame h
  | msgIgnoredA _ _ _ => exact message_frame h
  | msgIgnoredB _ _ _ => exact message_frame h
  | msgIgnoredC _ _ _ => exact message_frame h
  | msgIgnoredD _ _ _ => exact message_frame h
  | msgIgnoredE _ _ _ => exact message_frame h
  | msgIgnoredF _ _ _ => exact message_frame h

/-- A message at SEEK_STATUS is one dispatch, with the latches written (45_midi_decoder.md R221 to R224). -/
theorem message_runs_dispatch {s : State} {b k v : Byte} (hr : s.Ready) (hs : s.dec.state = .seekStatus)
    (hb : isStatusByte b = true) : receiveMessage b k v s =
      andThen (dispatch (kindOf s.cfg.midiChannel b) k v
        (s.withDec ⟨.seekStatus, b, kindOf s.cfg.midiChannel b, k⟩)) fun t => .next (settle t) := by
  rw [receiveMessage, whenReady_of_ready hr]
  simp [receive, settle, rxByte, hs, hb, latchStatus, decodeLatched, latchKey, finishMessage, endMessage, State.withDec]

theorem dispatch_dec {kind k v s} {t : State} (h : dispatch kind k v s = .next t) : t.dec = s.dec := by
  rw [(dispatch_frame h).1]

theorem settle_seek {t : State} (h : t.dec.state = .seekStatus) : settle t = t := by simp [settle, h]

theorem message_at_seek {s : State} {b k v : Byte} (hr : s.Ready) (hs : s.dec.state = .seekStatus)
    (hb : isStatusByte b = true) : receiveMessage b k v s =
      dispatch (kindOf s.cfg.midiChannel b) k v (s.withDec ⟨.seekStatus, b, kindOf s.cfg.midiChannel b, k⟩) := by
  rw [message_runs_dispatch hr hs hb]
  cases h : dispatch (kindOf s.cfg.midiChannel b) k v (s.withDec ⟨.seekStatus, b, kindOf s.cfg.midiChannel b, k⟩) with
  | next t => rw [andThen_next, settle_seek]; rw [dispatch_dec h]; rfl
  | fault e => rfl
  | refused e => rfl

theorem inv_settle {s : State} (h : s.Inv) : (settle s).Inv := by
  rw [settle_frame]; exact inv_withDec h _

theorem ready_settle {s : State} (h : s.Ready) : (settle s).Ready := by
  rw [settle_frame]; exact h

/-- A received byte never stops where the invariants hold. -/
theorem receive_next {s : State} (hr : s.Ready) (hi : s.Inv) (b : Byte) :
    ∃ t, receive b s = .next t ∧ t.Ready ∧ t.Inv := by
  have hi' := inv_settle hi
  have hr' := ready_settle hr
  have hst : (settle s).dec.state ≠ .decodeStatus := by
    unfold settle; split
    · simp [decodeLatched]
    · assumption
  have : ∃ t, rxByte b (settle s) = .next t ∧ t.Inv := by
    unfold rxByte
    split
    · refine ⟨_, rfl, ?_⟩; split
      · exact inv_withDec hi' _
      · exact hi'
    · rename_i h; exact absurd h hst
    · exact ⟨_, rfl, inv_withDec hi' _⟩
    · exact dispatch_next (s := endMessage (settle s)) hr'.1 (inv_withDec hi' _) _ _ _
  obtain ⟨t, ht, hti⟩ := this
  refine ⟨settle t, by rw [receive, ht, andThen_next], ?_, inv_settle hti⟩
  apply ready_settle
  rw [(rx_frame ht).1]; exact hr'

/-- A message never stops where the invariants hold. -/
theorem message_next {s : State} (hr : s.Ready) (hi : s.Inv) (b k v : Byte) :
    ∃ t, receiveMessage b k v s = .next t ∧ t.Inv := by
  rw [receiveMessage, whenReady_of_ready hr]
  obtain ⟨t, ht, hr1, hi1⟩ := receive_next hr hi b
  obtain ⟨u, hu, hr2, hi2⟩ := receive_next hr1 hi1 k
  obtain ⟨w, hw, hr3, hi3⟩ := receive_next hr2 hi2 v
  exact ⟨w, by rw [ht, andThen_next, hu, andThen_next, hw], hi3⟩

/-- A projection of the voices that a tick maps voice by voice. -/
theorem tick_map {α : Type} (f : Voice → α) (cfg n vs) (g : Voice → α) (h : ∀ i v, f (tickVoice cfg n i v) = g v) :
    (tickVoices cfg n vs).map f = vs.map g := by
  apply List.ext_getElem?; intro j
  simp only [List.getElem?_map, tickVoices_getElem?, Option.map_map]
  congr 1; funext v; exact h j v

/-- A voice that is not read torn takes its three steps on what is stored. -/
theorem tick_voice {s : State} {i : Nat} {v : Voice} (hv : s.voices[i]? = some v) (ht : readsTorn s.cfg v = false) :
    (tickState s).voices[i]? = some (stepVoice s.cfg v.increment v.targetVolume v) := by
  rw [tickState_voices, tickVoices_getElem?, hv, Option.map_some, tickVoice_of_not_torn ht]

/-- A run of ticks never stops after RESET. -/
theorem ticks_next (s : State) (hr : s.Ready) (n : Nat) : ∃ t, ticks n s = .next t ∧ t.Ready ∧ t.cfg = s.cfg := by
  induction n with
  | zero => exact ⟨s, rfl, hr, rfl⟩
  | succ n ih =>
    obtain ⟨t, ht, hrt, hc⟩ := ih
    exact ⟨tickState t, by rw [ticks, ht, andThen_next]; exact tick_iff.2 ⟨hrt, rfl⟩, hrt, hc⟩

/-- A run of the host from a state, one step at a time. -/
theorem core_run_succ (n : Nat) (s : State) :
    Host.Core.run Sys2Proof.core (n + 1) s =
      (andThen (step s) (fun t => Host.Core.run Sys2Proof.core n t) : Result) := by
  cases h : step s with
  | next t => simp only [Host.Core.run, show core.step s = .next t from h]; rfl
  | fault e => simp only [Host.Core.run, show core.step s = .fault e from h]; rfl
  | refused e => simp only [Host.Core.run, show core.step s = .refused e from h]; rfl

end Sys2Proof.Machine
end

