-- ==== Sys2Proof/Laws/PerInstr.lean ====
section
/-! SUPPORT. The families of LAWS.json: a statement about every instruction as syntax, one lemma per constructor. -/

namespace Sys2Proof.Laws.RoundTrip

/-- The decoder reads the instruction from its own encoding, at a decoder position and on a channel it is written for. -/
def Statement (i : Instr) : Prop :=
  ∀ (st : DecState) (ch : Channel), i.wf ch = true → i.canonical = true → i.enabledAt st = true →
    decodeInput st ch (encode i) = .ok i

/-- A command below 2 is note-off or note-on (30_encoding.md R72). -/
theorem note_command : ∀ c : Cmd, c < 2 → c = 0#3 ∨ c = 1#3 := by decide

theorem msb_eq_isStatusByte (b : Byte) : b.msb = isStatusByte b := rfl

theorem rxSeekData (d : Data7) : Statement (.rxSeekData d) := by
  intro st ch _ _ h
  cases st <;> simp_all [Instr.enabledAt, decodeInput, decodeByte, encode]

theorem rxSeekStatus (c : Cmd) (h : Channel) : Statement (.rxSeekStatus c h) := by
  intro st ch _ _ h
  cases st <;> simp_all [Instr.enabledAt, decodeInput, decodeByte, encode]

theorem decode : Statement (.decode) := by
  intro st ch _ _ h
  cases st <;> simp_all [Instr.enabledAt, decodeInput, decodeStrobe, encode]

theorem rxParam1 (k : Byte) : Statement (.rxParam1 k) := by
  intro st ch _ _ h
  cases st <;> simp_all [Instr.enabledAt, decodeInput, decodeByte, encode]

theorem rxParam2 (v : Byte) : Statement (.rxParam2 v) := by
  intro st ch _ _ h
  cases st <;> simp_all [Instr.enabledAt, decodeInput, decodeByte, encode]

theorem msgNoteOff (h : Channel) (k : Data7) (v : Data7) : Statement (.msgNoteOff h k v) := by
  intro st ch hw _ _
  simp_all [Instr.wf, decodeInput, decodeMessage, decodeMessageRow, decodeNoteMessage, encode]

theorem msgNoteOn (h : Channel) (k : Data7) (v : Data7) : Statement (.msgNoteOn h k v) := by
  intro st ch hw _ _
  simp_all [Instr.wf, decodeInput, decodeMessage, decodeMessageRow, decodeNoteMessage, encode]

theorem msgNoteOnV0 (h : Channel) (k : Data7) : Statement (.msgNoteOnV0 h k) := by
  intro st ch hw _ _
  simp_all [Instr.wf, decodeInput, decodeMessage, decodeMessageRow, decodeNoteMessage, encode]

theorem msgNotServiced (c : Cmd) (h : Channel) (k : Byte) (v : Byte) : Statement (.msgNotServiced c h k v) := by
  intro st ch hw hc _
  have hn := note_command c (by simp_all [Instr.canonical])
  rcases hn with rfl | rfl <;>
    simp_all [Instr.wf, Instr.canonical, decodeInput, decodeMessage, decodeMessageRow, decodeNoteMessage, encode,
      msb_eq_isStatusByte]

theorem msgKeyBit7 (c : Cmd) (h : Channel) (k : Data7) (v : Byte) : Statement (.msgKeyBit7 c h k v) := by
  intro st ch hw hc _
  have hn := note_command c (by simp_all [Instr.canonical])
  rcases hn with rfl | rfl <;>
    simp_all [Instr.wf, Instr.canonical, decodeInput, decodeMessage, decodeMessageRow, decodeNoteMessage, encode]

theorem msgVelBit7 (c : Cmd) (h : Channel) (k : Byte) (v : Data7) : Statement (.msgVelBit7 c h k v) := by
  intro st ch hw hc _
  have hn := note_command c (by simp_all [Instr.canonical])
  rcases hn with rfl | rfl <;>
    simp_all [Instr.wf, Instr.canonical, decodeInput, decodeMessage, decodeMessageRow, decodeNoteMessage, encode,
      msb_eq_isStatusByte]

theorem msgIgnoredA (h : Channel) (k : Byte) (v : Byte) : Statement (.msgIgnoredA h k v) := by
  intro st ch _ _ _
  simp [decodeInput, decodeMessage, decodeMessageRow, encode]

theorem msgIgnoredB (h : Channel) (k : Byte) (v : Byte) : Statement (.msgIgnoredB h k v) := by
  intro st ch _ _ _
  simp [decodeInput, decodeMessage, decodeMessageRow, encode]

theorem msgIgnoredC (h : Channel) (k : Byte) (v : Byte) : Statement (.msgIgnoredC h k v) := by
  intro st ch _ _ _
  simp [decodeInput, decodeMessage, decodeMessageRow, encode]

theorem msgIgnoredD (h : Channel) (k : Byte) (v : Byte) : Statement (.msgIgnoredD h k v) := by
  intro st ch _ _ _
  simp [decodeInput, decodeMessage, decodeMessageRow, encode]

theorem msgIgnoredE (h : Channel) (k : Byte) (v : Byte) : Statement (.msgIgnoredE h k v) := by
  intro st ch _ _ _
  simp [decodeInput, decodeMessage, decodeMessageRow, encode]

theorem msgIgnoredF (h : Channel) (k : Byte) (v : Byte) : Statement (.msgIgnoredF h k v) := by
  intro st ch _ _ _
  simp [decodeInput, decodeMessage, decodeMessageRow, encode]

theorem cmdNoteOn (k : Data7) (v : Data7) : Statement (.cmdNoteOn k v) := by
  intro st ch _ _ _
  simp [decodeInput, decodePort, encode]

theorem cmdNoteOff (k : Data7) (v : Data7) : Statement (.cmdNoteOff k v) := by
  intro st ch _ _ _
  simp [decodeInput, decodePort, encode]

theorem tick : Statement (.tick) := by
  intro st ch _ _ _
  rfl

theorem reset : Statement (.reset) := by
  intro st ch _ _ _
  rfl

end Sys2Proof.Laws.RoundTrip
end

