-- ==== Sys2Proof/Tests/Slice0.lean ====
section
/-! SUPPORT. Tests of the model on the words of spec/opcode_table.json and the vectors of 95_test_vectors.md (L1, L2, L3),
and, for every obligation with hypotheses, a witness that meets them. Expected values come from the spec. -/

set_option Elab.async false

namespace Sys2Proof.Tests

open Sys2Proof.Machine

/-! ## Helpers -/

/-- CFG-B of 95_test_vectors.md. -/
def cfgB (policy : Policy) : Config where
  N := 2
  P := 8
  policy := policy
  octaveLookup := false
  midiChannel := 0
  maxOctave := 10
  freqTable := (List.range 12).map fun s => 128 + 8 * s
  velocityMap := (List.range 128).map fun v => BitVec.ofNat 8 (2 * v)

/-- CFG-C of 95_test_vectors.md. -/
def cfgC : Config := { Config.cfgA with N := 2, W := 2 }

/-- The least configuration: every constraint of 00_scope.md R6 to R14 met with equality. -/
def cfgLeast : Config := { Config.cfgA with
  N := 1, P := 8, maxOctave := 9, W := 1, freqTable := List.replicate 12 255, velocityMap := List.replicate 128 255#8 }

/-- A voice that holds key `k` with age `age` and target volume `T`. -/
def held (cfg : Config) (k : Data7) (age : Nat) (T : Byte) : Voice :=
  { Voice.reset cfg with currentKey := keyByte k, increment := inc cfg k, age := age, targetVolume := T }

/-- The bank with these voices first and the rest as after RESET. -/
def bank (cfg : Config) (vs : List Voice) : State :=
  { State.resetWith cfg with
    voices := vs ++ List.replicate (cfg.N - vs.length) (Voice.reset cfg)
    et := vs.foldl (fun et v => if v.assigned then setTone et v.currentKey.toNat else et) 0
    numActive := vs.countP Voice.assigned }

def check (r : Result) (p : State → Bool) : Bool :=
  match r with
  | .next s => p s
  | .fault _ => false
  | .refused _ => false

def refusedBy (r : Result) (e : Refusal) : Bool :=
  match r with
  | .next _ => false
  | .fault _ => false
  | .refused e' => e' == e

def keysAndAges (s : State) : List (Byte × Nat) := s.voices.map fun v => (v.currentKey, v.age)

/-- The reset state with the decoder at a position. -/
def decoderAt (st : DecState) (status : Byte) (kind : Kind) (key : Byte) : State :=
  State.reset.withDec ⟨st, status, kind, key⟩

/-- L1.1, row 4: voices 0 to 2 hold 60, 62, 64. -/
def threeHeld : State :=
  bank .cfgA [held .cfgA 60 2 100, held .cfgA 62 1 100, held .cfgA 64 0 100]

/-- L1.1, last row: the full bank after the steal. -/
def fullBank : State :=
  bank .cfgA [held .cfgA 72 0 100, held .cfgA 62 5 100, held .cfgA 64 4 100, held .cfgA 65 3 100,
    held .cfgA 67 2 100, held .cfgA 69 1 100]

/-- CFG-C full, both ages 0 (L2.5.10). -/
def tiedBank : State := bank cfgC [held cfgC 60 0 100, held cfgC 67 0 100]

/-- A voice read torn: assigned since the last tick under ATOMIC_ASSIGN = false. -/
def tornBank : State :=
  bank { Config.cfgA with atomicAssign := false }
    [{ held { Config.cfgA with atomicAssign := false } 60 0 100 with torn := true, tornT := 7 }]

/-- One voice of CFG-B on key 120 (increment 64), at a phase and a smoothed volume. -/
def oneVoice (policy : Policy) (phase : Nat) (smoothed T : Byte) : State :=
  bank (cfgB policy) [{ held (cfgB policy) 120 0 T with phase := phase, smoothed := smoothed }]

def unbooted : State := { State.reset with booted := false }

/-! ## WellFormed -/

/-- A term that breaks each side condition of the table is refused. -/
theorem test_wf_refuses_each_condition :
    (Instr.msgNoteOff 1 60 64).wf 0 = false ∧ (Instr.msgNoteOn 1 60 64).wf 0 = false ∧
    (Instr.msgNoteOn 0 60 0).wf 0 = false ∧ (Instr.msgNoteOnV0 1 60).wf 0 = false ∧
    (Instr.msgNotServiced 1 0 60 64).wf 0 = false := by decide

theorem test_canonical_refuses_each_condition :
    (Instr.msgNotServiced 2 1 60 64).canonical = false ∧ (Instr.msgNotServiced 1 1 0x80 64).canonical = false ∧
    (Instr.msgNotServiced 1 1 60 0x80).canonical = false ∧ (Instr.msgKeyBit7 2 0 0 64).canonical = false ∧
    (Instr.msgVelBit7 7 0 60 0).canonical = false ∧ (Instr.msgVelBit7 1 0 0x80 0).canonical = false := by decide

theorem test_enabledAt_refuses_each_position :
    (Instr.rxSeekData 0).enabledAt .readParam1 = false ∧ (Instr.rxSeekStatus 0 0).enabledAt .decodeStatus = false ∧
    Instr.decode.enabledAt .seekStatus = false ∧ (Instr.rxParam1 0).enabledAt .readParam2 = false ∧
    (Instr.rxParam2 0).enabledAt .seekStatus = false := by decide

theorem test_wf_accepts_every_row :
    ([.rxSeekData 0x3C, .rxSeekStatus 1 0, .decode, .rxParam1 0x90, .rxParam2 0x64, .msgNoteOff 0 62 64, .msgNoteOn 0 60 1,
      .msgNoteOnV0 0 60, .msgNotServiced 1 1 60 100, .msgKeyBit7 1 0 0x10 64, .msgVelBit7 0 9 60 0, .msgIgnoredA 0 1 2,
      .msgIgnoredB 0 7 127, .msgIgnoredC 1 0x80 2, .msgIgnoredD 0 1 0x80, .msgIgnoredE 15 1 2, .msgIgnoredF 8 1 2,
      .cmdNoteOn 60 0, .cmdNoteOff 99 0, .tick, .reset] : List Instr).all (fun i => i.wf 0 && i.canonical) = true := by
  decide

/-! ## Decode: words written out from the `encoding` column of spec/opcode_table.json -/

theorem test_decode_seekData : decodeInput .seekStatus 0 (.byte 0b00111100#8) = .ok (.rxSeekData 0b0111100#7) := by decide
theorem test_decode_seekStatus : decodeInput .seekStatus 0 (.byte 0b10010101#8) = .ok (.rxSeekStatus 0b001#3 0b0101#4) := by decide
theorem test_decode_decode : decodeInput .decodeStatus 0 (.strobe .internal) = .ok .decode := by decide
theorem test_decode_param1 : decodeInput .readParam1 0 (.byte 0b10010000#8) = .ok (.rxParam1 0b10010000#8) := by decide
theorem test_decode_param2 : decodeInput .readParam2 0 (.byte 0b01100100#8) = .ok (.rxParam2 0b01100100#8) := by decide
theorem test_decode_noteOff :
    decodeInput .seekStatus 5 (.message 0b10000101#8 0b00111110#8 0b01000000#8) = .ok (.msgNoteOff 5 62 64) := by decide
theorem test_decode_noteOn :
    decodeInput .seekStatus 5 (.message 0b10010101#8 0b00111100#8 0b01100100#8) = .ok (.msgNoteOn 5 60 100) := by decide
theorem test_decode_noteOnV0 :
    decodeInput .seekStatus 0 (.message 0b10010000#8 0b00111100#8 0b00000000#8) = .ok (.msgNoteOnV0 0 60) := by decide
theorem test_decode_notServiced :
    decodeInput .seekStatus 0 (.message 0b10010001#8 0b00111100#8 0b01100100#8) = .ok (.msgNotServiced 1 1 60 100) := by decide
theorem test_decode_keyBit7 :
    decodeInput .seekStatus 0 (.message 0b10010000#8 0b10010000#8 0b01000000#8) = .ok (.msgKeyBit7 1 0 16 64) := by decide
theorem test_decode_velBit7 :
    decodeInput .seekStatus 0 (.message 0b10000011#8 0b00111100#8 0b10000001#8) = .ok (.msgVelBit7 0 3 60 1) := by decide
theorem test_decode_ignored :
    decodeInput .seekStatus 0 (.message 0b10100001#8 0b00000001#8 0b10000010#8) = .ok (.msgIgnoredA 1 1 0x82) ∧
    decodeInput .seekStatus 0 (.message 0b10110000#8 0b00000111#8 0b01111111#8) = .ok (.msgIgnoredB 0 7 127) ∧
    decodeInput .seekStatus 0 (.message 0b11000010#8 0b10000001#8 0b00000010#8) = .ok (.msgIgnoredC 2 0x81 2) ∧
    decodeInput .seekStatus 0 (.message 0b11010011#8 0b00000001#8 0b00000010#8) = .ok (.msgIgnoredD 3 1 2) ∧
    decodeInput .seekStatus 0 (.message 0b11100100#8 0b00000001#8 0b00000010#8) = .ok (.msgIgnoredE 4 1 2) ∧
    decodeInput .seekStatus 0 (.message 0b11111000#8 0b00000001#8 0b00000010#8) = .ok (.msgIgnoredF 8 1 2) := by decide
theorem test_decode_cmdNoteOn : decodeInput .readParam1 0 (.port 0b101111001100100#15) = .ok (.cmdNoteOn 60 100) := by decide
theorem test_decode_cmdNoteOff : decodeInput .readParam1 0 (.port 0b001111101000000#15) = .ok (.cmdNoteOff 62 64) := by decide
theorem test_decode_strobes :
    decodeInput .readParam2 0 (.strobe .tick) = .ok .tick ∧ decodeInput .readParam2 0 (.strobe .reset) = .ok .reset := by decide

/-- The port words of L3.4. -/
theorem test_decode_port_words :
    decodePort 0x5F64#15 = .cmdNoteOn 62 100 ∧ decodePort 0x1F00#15 = .cmdNoteOff 62 0 ∧
    decodePort 0x60E4#15 = .cmdNoteOn 65 100 ∧ decodePort 0x2080#15 = .cmdNoteOff 65 0 ∧
    decodePort 0x3180#15 = .cmdNoteOff 99 0 ∧ decodePort 0x5E00#15 = .cmdNoteOn 60 0 := by decide

theorem test_decode_rejects_by_name :
    decodeInput .decodeStatus 0 (.byte 0x3C#8) = .error .byteHeld ∧
    decodeInput .seekStatus 0 (.strobe .internal) = .error .noInternalStep ∧
    decodeInput .seekStatus 0 (.message 0x3C#8 0x90#8 0x64#8) = .error .noMessage := by decide

/-- Table words as the table numbers them: `match` of a row, with its operand bits 0 but for the condition it names. -/
theorem test_table_words :
    decodeTableWord 8 0x00 = some (.rxSeekData 0) ∧ decodeTableWord 8 0x80 = some (.rxSeekStatus 0 0) ∧
    decodeTableWord 0 2 = some .decode ∧ decodeTableWord 24 0x800000 = some (.msgNoteOff 0 0 0) ∧
    decodeTableWord 24 0x900001 = some (.msgNoteOn 0 0 1) ∧ decodeTableWord 24 0x900000 = some (.msgNoteOnV0 0 0) ∧
    decodeTableWord 24 0x810000 = some (.msgNotServiced 0 1 0 0) ∧ decodeTableWord 24 0x808000 = some (.msgKeyBit7 0 0 0 0) ∧
    decodeTableWord 24 0x800080 = some (.msgVelBit7 0 0 0 0) ∧ decodeTableWord 24 0xA00000 = some (.msgIgnoredA 0 0 0) ∧
    decodeTableWord 24 0xF00000 = some (.msgIgnoredF 0 0 0) ∧ decodeTableWord 16 0x4000 = some (.cmdNoteOn 0 0) ∧
    decodeTableWord 16 0x0000 = some (.cmdNoteOff 0 0) ∧ decodeTableWord 0 0 = some .tick ∧
    decodeTableWord 0 1 = some .reset ∧ decodeTableWord 16 0x8000 = none := by decide

/-! ## Tables -/

/-- The hexadecimal form of 40_tables.md R101, a second writing of the wavetable. -/
theorem test_wavetable_bytes :
    (wav.map fun x => (BitVec.ofInt 8 x).toNat) =
      [0x00, 0x03, 0x06, 0x09, 0x0C, 0x10, 0x13, 0x16, 0x19, 0x1C, 0x1F, 0x22, 0x25, 0x28, 0x2B, 0x2E] ++
      [0x31, 0x33, 0x36, 0x39, 0x3C, 0x3F, 0x41, 0x44, 0x47, 0x49, 0x4C, 0x4E, 0x51, 0x53, 0x55, 0x58] ++
      [0x5A, 0x5C, 0x5E, 0x60, 0x62, 0x64, 0x66, 0x68, 0x6A, 0x6B, 0x6D, 0x6F, 0x70, 0x71, 0x73, 0x74] ++
      [0x75, 0x76, 0x78, 0x79, 0x7A, 0x7A, 0x7B, 0x7C, 0x7D, 0x7D, 0x7E, 0x7E, 0x7E, 0x7F, 0x7F, 0x7F] ++
      [0x7F, 0x7F, 0x7F, 0x7F, 0x7E, 0x7E, 0x7E, 0x7D, 0x7D, 0x7C, 0x7B, 0x7A, 0x7A, 0x79, 0x78, 0x76] ++
      [0x75, 0x74, 0x73, 0x71, 0x70, 0x6F, 0x6D, 0x6B, 0x6A, 0x68, 0x66, 0x64, 0x62, 0x60, 0x5E, 0x5C] ++
      [0x5A, 0x58, 0x55, 0x53, 0x51, 0x4E, 0x4C, 0x49, 0x47, 0x44, 0x41, 0x3F, 0x3C, 0x39, 0x36, 0x33] ++
      [0x31, 0x2E, 0x2B, 0x28, 0x25, 0x22, 0x1F, 0x1C, 0x19, 0x16, 0x13, 0x10, 0x0C, 0x09, 0x06, 0x03] ++
      [0x00, 0xFD, 0xFA, 0xF7, 0xF4, 0xF0, 0xED, 0xEA, 0xE7, 0xE4, 0xE1, 0xDE, 0xDB, 0xD8, 0xD5, 0xD2] ++
      [0xCF, 0xCD, 0xCA, 0xC7, 0xC4, 0xC1, 0xBF, 0xBC, 0xB9, 0xB7, 0xB4, 0xB2, 0xAF, 0xAD, 0xAB, 0xA8] ++
      [0xA6, 0xA4, 0xA2, 0xA0, 0x9E, 0x9C, 0x9A, 0x98, 0x96, 0x95, 0x93, 0x91, 0x90, 0x8F, 0x8D, 0x8C] ++
      [0x8B, 0x8A, 0x88, 0x87, 0x86, 0x86, 0x85, 0x84, 0x83, 0x83, 0x82, 0x82, 0x82, 0x81, 0x81, 0x81] ++
      [0x81, 0x81, 0x81, 0x81, 0x82, 0x82, 0x82, 0x83, 0x83, 0x84, 0x85, 0x86, 0x86, 0x87, 0x88, 0x8A] ++
      [0x8B, 0x8C, 0x8D, 0x8F, 0x90, 0x91, 0x93, 0x95, 0x96, 0x98, 0x9A, 0x9C, 0x9E, 0xA0, 0xA2, 0xA4] ++
      [0xA6, 0xA8, 0xAB, 0xAD, 0xAF, 0xB2, 0xB4, 0xB7, 0xB9, 0xBC, 0xBF, 0xC1, 0xC4, 0xC7, 0xCA, 0xCD] ++
      [0xCF, 0xD2, 0xD5, 0xD8, 0xDB, 0xDE, 0xE1, 0xE4, 0xE7, 0xEA, 0xED, 0xF0, 0xF4, 0xF7, 0xFA, 0xFD] := by
  decide +kernel

/-- L2.1, `wav_lookup`. -/
theorem test_wavLookup :
    (wavLookup 16 0x40FF).toInt = 127 ∧ (wavLookup 16 0xC000).toInt = -127 ∧ (wavLookup 16 0x2080).toInt = 90 ∧
    (wavLookup 8 0x81).toInt = -3 ∧ (wavLookup 16 0xFFFF).toInt = -3 := by decide +kernel

/-- L2.1, `inc`, with the octave table in place of the division too. -/
theorem test_inc :
    inc .cfgA 0 = 8 ∧ inc .cfgA 11 = 13 ∧ inc .cfgA 59 = 216 ∧ inc .cfgA 60 = 256 ∧ inc .cfgA 127 = 11776 ∧
    inc { Config.cfgA with octaveLookup := true } 59 = 216 ∧ inc { Config.cfgA with octaveLookup := true } 127 = 11776 ∧
    inc (cfgB .none) 12 = 0 ∧ inc (cfgB .none) 107 = 27 ∧ inc (cfgB .none) 119 = 54 ∧ inc (cfgB .none) 127 = 92 := by
  decide +kernel

/-! ## TICK: its three steps, then the operation -/

/-- L2.2. -/
theorem test_phase_add :
    phaseSum 16 0xFF00 0x100 = 0 ∧ zeroCrossing 16 0xFF00 0x100 = true ∧ zeroCrossing 16 0xFEFF 0x100 = false ∧
    phaseSum 16 0x8000 0xFFFF = 0x7FFF ∧ zeroCrossing 16 0x0001 0xFFFF = true ∧ phaseSum 8 0xFE 3 = 1 ∧
    zeroCrossing 8 0xFE 3 = true := by decide

/-- L2.3. -/
theorem test_smooth :
    smooth .transition true 12 10 = 11 ∧ smooth .transition false 12 10 = 10 ∧ smooth .transition true 10 12 = 11 ∧
    smooth .transition true 0 255 = 254 ∧ smooth .transition true 255 254 = 255 ∧ smooth .transition true 11 11 = 11 ∧
    smooth .waitNewPhase true 200 0 = 200 ∧ smooth .waitNewPhase false 200 0 = 0 := by decide

/-- L2.4. -/
theorem test_dutyOf :
    dutyOf 0 (-127) = 0x80#8 ∧ dutyOf 255 127 = 0xFE#8 ∧ dutyOf 255 (-127) = 0x01#8 ∧ dutyOf 1 1 = 0x80#8 ∧
    dutyOf 1 (-1) = 0x7F#8 ∧ dutyOf 100 127 = 0xB1#8 ∧ dutyOf 128 (-127) = 0x40#8 ∧ dutyOf 127 64 = 0x9F#8 := by decide

/-- L3.1a tick 4 and L3.1b tick 4: the crossing tick; L3.1c tick 1. The second channel is at the bias. -/
theorem test_tick_policies :
    check (exec .tick (oneVoice .waitNewPhase 192 0 128)) (fun s =>
      s.voices.map (·.phase) == [0, 0] && s.voices.map (·.smoothed) == [128#8, 0#8] && s.emitted == [⟨0, 128#8⟩, ⟨1, 128#8⟩]) ∧
    check (exec .tick (oneVoice .transition 192 0 128)) (fun s => s.voices.map (·.smoothed) == [1#8, 0#8]) ∧
    check (exec .tick (oneVoice .none 0 0 128)) (fun s => s.emitted == [⟨0, 191#8⟩, ⟨1, 128#8⟩]) := by decide +kernel

/-- The torn bit is cleared; the increment and the target stay (60_exceptions.md R306). -/
theorem test_tick_clears_torn :
    check (exec .tick tornBank) (fun s => s.voices.map (·.torn) == List.replicate 6 false &&
      (s.voices.map (·.increment)).head? == some 256 && (s.voices.map (·.targetVolume)).head? == some 100#8) := by
  decide +kernel

/-! ## Allocator -/

/-- L2.5.1, L2.5.2 and L2.5.8. -/
theorem test_cmdNoteOn_free :
    check (exec (.cmdNoteOn 65 100) threeHeld) (fun s =>
      keysAndAges s == [(60, 3), (62, 2), (64, 1), (65, 0), (0xFF, 255), (0xFF, 255)] && s.numActive == 4 && s.sounds 65 &&
      s.voices.map (·.increment) == [256, 288, 320, 336, 0, 0]) ∧
    check (exec (.cmdNoteOn 67 50) (bank { Config.cfgA with N := 3 }
        [held .cfgA 60 1 100, Voice.reset .cfgA, held .cfgA 64 0 100])) (fun s =>
      keysAndAges s == [(60, 2), (67, 0), (64, 1)] && s.numActive == 3) ∧
    check (exec (.cmdNoteOn 60 0) State.reset) (fun s =>
      keysAndAges s == (60, 0) :: List.replicate 5 (0xFF, 255) && s.numActive == 1) := by decide +kernel

/-- L2.5.3, the steal of L1.1 continued to key 76, and L2.5.10. -/
theorem test_cmdNoteOn_retrigger_steal :
    check (exec (.cmdNoteOn 64 90) fullBank) (fun s =>
      keysAndAges s == [(72, 0), (62, 5), (64, 0), (65, 3), (67, 2), (69, 1)] && s.numActive == 6 && s.et == fullBank.et &&
      (s.voices.map (·.targetVolume)) == [100, 100, 90, 100, 100, 100]) ∧
    check (exec (.cmdNoteOn 76 127) fullBank) (fun s =>
      keysAndAges s == [(72, 1), (76, 0), (64, 5), (65, 4), (67, 3), (69, 2)] && s.numActive == 6 && !s.sounds 62 &&
      s.sounds 76) ∧
    check (exec (.cmdNoteOn 69 100) tiedBank) (fun s => keysAndAges s == [(69, 0), (67, 1)]) := by decide +kernel

/-- L2.5.9: the age saturates at AGE_MAX = 2 and never becomes FREE = 3. -/
theorem test_age_saturates :
    check (exec (.cmdNoteOn 67 100) (bank cfgC [held cfgC 60 2 100])) (fun s => keysAndAges s == [(60, 2), (67, 0)]) := by
  decide +kernel

/-- L2.5.5. -/
theorem test_stealScan :
    stealScan [held .cfgA 60 3 1, held .cfgA 62 3 1, held .cfgA 64 1 1] = 0 ∧
    stealScan [held .cfgA 60 1 1, held .cfgA 62 3 1, held .cfgA 64 3 1] = 1 ∧ stealScan [held .cfgA 60 0 1] = 0 := by
  decide +kernel

/-- L2.5.7 and L2.5.6. -/
theorem test_cmdNoteOff :
    check (exec (.cmdNoteOff 62 64) fullBank) (fun s =>
      keysAndAges s == [(72, 0), (0xFF, 255), (64, 4), (65, 3), (67, 2), (69, 1)] && s.numActive == 5 && !s.sounds 62 &&
      s.voices.map (·.increment) == [512, 288, 320, 336, 368, 400] &&
      s.voices.map (·.targetVolume) == [100, 0, 100, 100, 100, 100]) ∧
    check (exec (.cmdNoteOff 99 0) fullBank) (fun s => s == fullBank) := by decide +kernel

/-- 60_exceptions.md R306: the assignment records the pre-command target and sets the bit; with ATOMIC_ASSIGN it does not. -/
theorem test_assign_records_torn :
    check (exec (.cmdNoteOn 60 90) tornBank) (fun s => (s.voices.map fun v => (v.torn, v.tornT)).head? == some (true, 100#8)) ∧
    check (exec (.cmdNoteOn 64 90) fullBank) (fun s => s.voices.all fun v => !v.torn) := by decide +kernel

/-! ## Decoder (L2.6) -/

theorem test_rxSeekData :
    check (exec (.rxSeekData 0x7F) State.reset) (fun s => s == State.reset) := by decide +kernel

theorem test_rxSeekStatus :
    check (exec (.rxSeekStatus 7 0) State.reset) (fun s => s == decoderAt .decodeStatus 0xF0 .ignore 0) := by decide +kernel

theorem test_decode_kinds :
    ([(0x80, .off), (0x90, .on), (0x91, .ignore), (0x9F, .ignore), (0xA0, .ignore), (0xF8, .ignore), (0xF0, .ignore)] :
      List (Byte × Kind)).all (fun p =>
        check (exec .decode (decoderAt .decodeStatus p.1 .ignore 0)) fun s => s == decoderAt .readParam1 p.1 p.2 0) = true := by
  decide +kernel

theorem test_rxParam1 :
    check (exec (.rxParam1 0x90) (decoderAt .readParam1 0x90 .on 0)) (fun s => s == decoderAt .readParam2 0x90 .on 0x90) := by
  decide +kernel

theorem test_rxParam2_dispatch :
    check (exec (.rxParam2 0x64) (decoderAt .readParam2 0x90 .on 0x3C)) (fun s =>
      s.dec == ⟨.seekStatus, 0x90, .on, 0x3C⟩ && s.sounds 60 && s.numActive == 1) ∧
    check (exec (.rxParam2 0x00) (threeHeld.withDec ⟨.readParam2, 0x90, .on, 0x3C⟩)) (fun s =>
      !s.sounds 60 && s.numActive == 2) ∧
    check (exec (.rxParam2 0x40) (threeHeld.withDec ⟨.readParam2, 0x80, .off, 0x3C⟩)) (fun s =>
      !s.sounds 60 && s.numActive == 2) := by decide +kernel

theorem test_rxParam2_silent :
    ([(.on, 0x90, 0x40), (.on, 0x3C, 0x80), (.off, 0x3C, 0x80), (.ignore, 0x3C, 0x64)] : List (Kind × Byte × Byte)).all (fun p =>
      check (exec (.rxParam2 p.2.2) (threeHeld.withDec ⟨.readParam2, 0x90, p.1, p.2.1⟩)) fun s =>
        s == threeHeld.withDec ⟨.seekStatus, 0x90, p.1, p.2.1⟩) = true := by decide +kernel

/-! ## Messages -/

/-- L3.3: on 69 v80; L1.2: velocity 0 frees the voice; L3.2: off 62 frees voice 1. -/
theorem test_note_messages :
    check (exec (.msgNoteOn 0 69 80) State.reset) (fun s =>
      s.dec == ⟨.seekStatus, 0x90, .on, 0x45⟩ && s.numActive == 1 && (s.voices.map (·.increment)).head? == some 400) ∧
    check (exec (.msgNoteOnV0 0 60) threeHeld) (fun s =>
      s.dec == ⟨.seekStatus, 0x90, .on, 0x3C⟩ && !s.sounds 60 && s.numActive == 2) ∧
    check (exec (.msgNoteOff 0 62 64) fullBank) (fun s =>
      s.dec == ⟨.seekStatus, 0x80, .off, 0x3E⟩ && !s.sounds 62 && s.numActive == 5) := by decide +kernel

/-- L1.3 and L3.3, and the other rows that dispatch nothing: only the latches change. -/
theorem test_silent_messages :
    ([(.msgNotServiced 1 1 0x3C 0x64, 0x91, .ignore, 0x3C), (.msgKeyBit7 1 0 0x10 0x40, 0x90, .on, 0x90),
      (.msgVelBit7 1 0 0x3C 0, 0x90, .on, 0x3C), (.msgIgnoredA 0 60 64, 0xA0, .ignore, 60),
      (.msgIgnoredB 0 7 127, 0xB0, .ignore, 7), (.msgIgnoredC 0 60 64, 0xC0, .ignore, 60),
      (.msgIgnoredD 0 60 64, 0xD0, .ignore, 60), (.msgIgnoredE 0 60 64, 0xE0, .ignore, 60),
      (.msgIgnoredF 0 60 64, 0xF0, .ignore, 60)] : List (Instr × Byte × Kind × Byte)).all (fun p =>
      check (exec p.1 threeHeld) fun s => s == threeHeld.withDec ⟨.seekStatus, p.2.1, p.2.2.1, p.2.2.2⟩) = true := by
  decide +kernel

/-- 45_midi_decoder.md R226: met in READ_PARAM1, the first two bytes of a message are the parameters of the message before,
and its third is discarded. -/
theorem test_message_out_of_step :
    check (exec (.msgNoteOn 0 60 100) (threeHeld.withDec ⟨.readParam1, 0x90, .on, 0⟩)) (fun s =>
      s == threeHeld.withDec ⟨.seekStatus, 0x90, .on, 0x90⟩) := by decide +kernel

/-! ## RESET and the step -/

/-- 70_reset_and_hazards.md R400. -/
theorem test_reset :
    check (exec .reset (fullBank.withDec ⟨.readParam2, 0x90, .on, 0x3C⟩)) (fun s => s == State.reset) ∧
    check (exec .reset unbooted) (fun s => s == State.reset) := by decide +kernel

/-- The words of the table placed by withFetchWord on the reset state run, each as its own row. -/
theorem test_fetched_words_run :
    check (step (State.reset.withFetchWord 8 0x3C)) (fun s => s == State.reset) ∧
    check (step (State.reset.withFetchWord 8 0x90)) (fun s => s == decoderAt .decodeStatus 0x90 .ignore 0) ∧
    check (step (State.reset.withFetchWord 24 0x903C64)) (fun s => s.sounds 60 && s.schedule == []) ∧
    check (step (State.reset.withFetchWord 16 0x5E64)) (fun s => s.sounds 60) ∧
    check (step (State.reset.withFetchWord 0 0)) (fun s => s.emitted == (List.range 6).map fun i => ⟨i, 128⟩) ∧
    check (step (State.reset.withFetchWord 0 1)) (fun s => s == State.reset) ∧
    check (step (State.reset.withFetchWord 0 2)) (fun s => s == decoderAt .readParam1 0 .off 0) := by decide +kernel

/-- 45_midi_decoder.md R222: the byte waits for DECODE. -/
theorem test_byte_waits :
    check (step ((decoderAt .decodeStatus 0x90 .ignore 0).withSchedule [.byte 0x3C])) (fun s =>
      s == (decoderAt .readParam1 0x90 .on 0).withSchedule [.byte 0x3C]) := by decide +kernel

theorem test_refusals :
    refusedBy (exec .tick unbooted) .beforeReset ∧
    refusedBy (exec .tick { State.reset with cfg := { Config.cfgA with N := 0 } }) .invalidConfiguration ∧
    refusedBy (exec (.rxParam1 0) State.reset) .notEnabled ∧
    refusedBy (exec (.cmdNoteOn 60 1) (State.reset.withEt (setTone 0 60))) .invariantBroken := by decide +kernel

/-! ## Witnesses: states and operands that meet the hypotheses of the obligations -/

theorem ready_reset : State.reset.Ready := ⟨by decide +kernel, rfl⟩
theorem ready_at (st : DecState) (status : Byte) (kind : Kind) (key : Byte) : (decoderAt st status kind key).Ready :=
  ready_reset
theorem ready_threeHeld : threeHeld.Ready := ⟨by decide +kernel, rfl⟩
theorem ready_fullBank : fullBank.Ready := ⟨by decide +kernel, rfl⟩
theorem ready_tiedBank : tiedBank.Ready := ⟨by decide +kernel, rfl⟩
theorem ready_tornBank : tornBank.Ready := ⟨by decide +kernel, rfl⟩
theorem ready_oneVoice : ∀ policy, (oneVoice policy 192 0 128).Ready :=
  fun policy => ⟨by cases policy <;> decide +kernel, rfl⟩

/-- The invariants of a concrete state, decided in one go. -/
theorem inv_of {s : State}
    (h : s.voices.length = s.cfg.N ∧ (∀ v ∈ s.voices, v.phase < 2 ^ s.cfg.P ∧ v.increment < 2 ^ s.cfg.P) ∧
      (∀ v ∈ s.voices, v.currentKey = noneKey ∨ v.currentKey.msb = false) ∧
      (s.voices.Pairwise fun a b => a.currentKey = b.currentKey → a.currentKey = noneKey) ∧
      (∀ key : Data7, s.sounds key = true ↔ ∃ v ∈ s.voices, v.currentKey = keyByte key) ∧
      (s.numActive = s.voices.countP Voice.assigned ∧ s.numActive ≤ s.cfg.N) ∧
      (∀ v ∈ s.voices, v.age = freeAge s.cfg ↔ v.currentKey = noneKey) ∧
      (∀ v ∈ s.voices, v.assigned = true → v.age ≤ ageMax s.cfg) ∧
      (∀ v ∈ s.voices, v.assigned = true → v.increment = inc s.cfg (low7 v.currentKey)) ∧
      (s.cfg.atomicAssign = true → ∀ v ∈ s.voices, v.torn = false)) : s.Inv := by
  obtain ⟨h1, h2, h3, h4, h5, h6, h7, h8, h9, h10⟩ := h
  exact ⟨h1, h2, h3, h4, h5, h6, h7, h8, h9, h10⟩

theorem inv_reset : State.reset.Inv := inv_of (by decide +kernel)
theorem inv_threeHeld : threeHeld.Inv := inv_of (by decide +kernel)
theorem inv_fullBank : fullBank.Inv := inv_of (by decide +kernel)
theorem inv_tiedBank : tiedBank.Inv := inv_of (by decide +kernel)
theorem inv_tornBank : tornBank.Inv := inv_of (by decide +kernel)
theorem inv_oneVoice : ∀ policy, (oneVoice policy 192 0 128).Inv := by
  intro policy; cases policy <;> exact inv_of (by decide +kernel)

theorem witness_DecodeOfEncodeIsTheOperation :
    ([(.seekStatus, .rxSeekData 127), (.seekStatus, .rxSeekStatus 7 15), (.decodeStatus, .decode), (.readParam1, .rxParam1 255),
      (.readParam2, .rxParam2 0), (.readParam1, .msgNoteOff 0 127 0), (.readParam2, .msgNoteOn 0 0 1),
      (.seekStatus, .msgNoteOnV0 0 0), (.seekStatus, .msgNotServiced 0 15 127 127), (.seekStatus, .msgKeyBit7 1 15 0 255),
      (.seekStatus, .msgVelBit7 1 0 127 127), (.seekStatus, .msgIgnoredA 15 255 255), (.seekStatus, .msgIgnoredB 0 0 0),
      (.seekStatus, .msgIgnoredC 0 0 0), (.seekStatus, .msgIgnoredD 0 0 0), (.seekStatus, .msgIgnoredE 0 0 0),
      (.seekStatus, .msgIgnoredF 0 0 0), (.decodeStatus, .cmdNoteOn 127 0), (.decodeStatus, .cmdNoteOff 0 127),
      (.decodeStatus, .tick), (.decodeStatus, .reset)] : List (DecState × Instr)).all (fun p =>
      p.2.wf 0 && p.2.canonical && p.2.enabledAt p.1) = true := by decide

theorem witness_EncodeOfDecodeIsTheInput :
    decodeInput .readParam1 0 (.message 0x9F 0xFF 0xFF) = .ok (.msgKeyBit7 1 15 127 255) := by decide

theorem witness_OverlappingRowsHaveOneEffect :
    ([.msgNotServiced 2 1 60 64, .msgNotServiced 0 1 0x80 0x80, .msgKeyBit7 7 0 0 0, .msgVelBit7 7 1 60 0,
      .msgVelBit7 1 0 0x80 0] : List Instr).all (fun i => i.wf 0 && !i.canonical && i.enabledAt .seekStatus) = true := by
  decide

theorem witness_StepRunsTheDecodedOperation :
    configValid (State.reset.withSchedule [.byte 0x90]).cfg = true ∧
    (State.reset.withSchedule [.byte 0x90]).schedule = .byte 0x90 :: [] ∧
    decodeInput State.reset.dec.state State.reset.cfg.midiChannel (.byte 0x90) = .ok (.rxSeekStatus 1 0) := by decide +kernel

theorem witness_ByteWaitsUntilDecodeHasRun :
    (decoderAt .decodeStatus 0x90 .ignore 0).Ready ∧ (decoderAt .decodeStatus 0x90 .ignore 0).dec.state = .decodeStatus ∧
    (decoderAt .decodeStatus 0x90 .ignore 0).schedule = [] ∧
    ((decoderAt .decodeStatus 0x90 .ignore 0).withSchedule [.byte 0x3C]).schedule = .byte 0x3C :: [] :=
  ⟨ready_at _ _ _ _, rfl, rfl, rfl⟩

/-- One state for each position that waits. -/
theorem witness_BlockWaitsForInput :
    ∀ st ∈ [DecState.seekStatus, .readParam1, .readParam2],
      (decoderAt st 0x90 .on 0x3C).Ready ∧ (decoderAt st 0x90 .on 0x3C).schedule = [] ∧
      (decoderAt st 0x90 .on 0x3C).dec.state = st :=
  fun _ _ => ⟨ready_at _ _ _ _, rfl, rfl⟩

theorem witness_NonMessageIsPresentedByteByByte :
    configValid State.reset.cfg = true ∧
    (State.reset.withSchedule [.message 0x7F 0x90 0x3C]).schedule = .message 0x7F 0x90 0x3C :: [] ∧
    isStatusByte 0x7F = false := by decide +kernel

/-- The decoder statements (SeekStatusDiscardsDataByte, SeekStatusTakesStatusByte, DecodeComputesTheKind,
ReadParam1TakesAnyByte, ReadParam2Dispatches): a ready state at every position. -/
theorem witness_decoder_positions :
    ∀ st : DecState, (decoderAt st 0x90 .on 0x3C).Ready ∧ (decoderAt st 0x90 .on 0x3C).dec.state = st :=
  fun _ => ⟨ready_at _ _ _ _, rfl⟩

/-- Each clause of DecodeComputesTheKind, at the ends of its range. -/
theorem witness_DecodeComputesTheKind :
    statusChannel 0x91 ≠ 0 ∧ (statusChannel 0x80 = 0 ∧ statusCmd 0x80 = 0) ∧ (statusChannel 0x90 = 0 ∧ statusCmd 0x90 = 1) ∧
    2#3 ≤ statusCmd 0xA0 ∧ 2#3 ≤ statusCmd 0xFF := by decide

/-- Each clause of ReadParam2Dispatches, as (kind, first parameter, second parameter). -/
theorem witness_ReadParam2Dispatches :
    ((0x80#8).msb = true ∧ (0x80#8).msb = true) ∧ ((0x7F#8).msb = false ∧ (0x00#8).msb = false) ∧
    (decoderAt .readParam2 0x80 .off 0x7F).dec.kind = .off ∧ (decoderAt .readParam2 0x90 .on 0x7F).dec.kind = .on ∧
    (decoderAt .readParam2 0xA0 .ignore 0x7F).dec.kind = .ignore ∧ ((0x01#8).msb = false ∧ 0x01#8 ≠ 0) := by decide +kernel

theorem witness_ReadParam2Completes :
    (fullBank.withDec ⟨.readParam2, 0x90, .on, 0x4C⟩).Ready ∧ (fullBank.withDec ⟨.readParam2, 0x90, .on, 0x4C⟩).Inv ∧
    (fullBank.withDec ⟨.readParam2, 0x90, .on, 0x4C⟩).dec.state = .readParam2 :=
  ⟨ready_fullBank, inv_withDec inv_fullBank _, rfl⟩

theorem witness_DecoderRowsAreRefusedElsewhere :
    (decoderAt .decodeStatus 0x90 .ignore 0).Ready ∧ (decoderAt .decodeStatus 0x90 .ignore 0).dec.state ≠ .seekStatus ∧
    (decoderAt .decodeStatus 0x90 .ignore 0).dec.state ≠ .readParam1 ∧
    (decoderAt .decodeStatus 0x90 .ignore 0).dec.state ≠ .readParam2 ∧
    (decoderAt .seekStatus 0x90 .ignore 0).Ready ∧ (decoderAt .seekStatus 0x90 .ignore 0).dec.state ≠ .decodeStatus :=
  ⟨ready_at _ _ _ _, by decide +kernel, by decide +kernel, by decide +kernel, ready_at _ _ _ _, by decide +kernel⟩

theorem witness_RetriggerKeepsTheVoice : fullBank.Ready ∧ fullBank.Inv ∧ fullBank.sounds 64 = true :=
  ⟨ready_fullBank, inv_fullBank, by decide +kernel⟩

/-- With ATOMIC_ASSIGN = false too. -/
theorem witness_RetriggerKeepsTheVoice_torn : tornBank.Ready ∧ tornBank.Inv ∧ tornBank.sounds 60 = true :=
  ⟨ready_tornBank, inv_tornBank, by decide +kernel⟩

theorem witness_NewKeyTakesLowestFreeVoice :
    threeHeld.Ready ∧ threeHeld.Inv ∧ threeHeld.sounds 65 = false ∧ threeHeld.numActive < threeHeld.cfg.N :=
  ⟨ready_threeHeld, inv_threeHeld, by decide +kernel, by decide +kernel⟩

theorem witness_NewKeyStealsOnFullBank :
    tiedBank.Ready ∧ tiedBank.Inv ∧ tiedBank.sounds 69 = false ∧ tiedBank.numActive = tiedBank.cfg.N :=
  ⟨ready_tiedBank, inv_tiedBank, by decide +kernel, by decide +kernel⟩

theorem witness_StealScanReturnsTheOldest : tiedBank.voices ≠ [] := by decide +kernel

/-- A voice that holds the key, and a key no voice holds. -/
theorem witness_NoteOffReleasesTheVoice :
    fullBank.Ready ∧ fullBank.Inv ∧ fullBank.voices[1]? = some (held .cfgA 62 5 100) ∧
    (held .cfgA 62 5 100).currentKey = keyByte 62 ∧ ∀ v ∈ fullBank.voices, v.currentKey ≠ keyByte 99 :=
  ⟨ready_fullBank, inv_fullBank, by decide +kernel, by decide +kernel, by decide +kernel⟩

/-- Both clauses of the note-off, on a sounding key and on one that does not sound. -/
theorem witness_AllocatorNeverFails :
    fullBank.Ready ∧ fullBank.Inv ∧ fullBank.sounds 62 = true ∧ fullBank.sounds 60 = false :=
  ⟨ready_fullBank, inv_fullBank, by decide +kernel, by decide +kernel⟩

theorem witness_AgesCountCommandsSinceAssignment :
    fullBank.Ready ∧ fullBank.Inv ∧ fullBank.sounds 60 = false ∧
    (fullBank.voices.Pairwise fun a b => a.assigned = true → b.assigned = true → a.age ≠ b.age) ∧
    ∀ v ∈ fullBank.voices, v.assigned = true → v.age < ageMax fullBank.cfg :=
  ⟨ready_fullBank, inv_fullBank, by decide +kernel, by decide +kernel, by decide +kernel⟩

/-- A command, a tick, and two states that differ only in what a tick does not read. -/
theorem witness_FieldsHaveOneOwner :
    exec (.cmdNoteOff 62 64) fullBank = .next (noteOffState 62 fullBank) ∧
    exec .tick fullBank = .next (tickState fullBank) ∧
    exec .tick (fullBank.withEt 0) = .next (tickState (fullBank.withEt 0)) ∧
    fullBank.cfg = (fullBank.withEt 0).cfg ∧ fullBank.draws = (fullBank.withEt 0).draws ∧
    fullBank.voices.map Voice.tickReads = (fullBank.withEt 0).voices.map Voice.tickReads ∧ fullBank ≠ fullBank.withEt 0 :=
  ⟨exec_off ready_fullBank _ _, tick_iff.2 ⟨ready_fullBank, rfl⟩, tick_iff.2 ⟨ready_fullBank, rfl⟩, rfl, rfl, rfl,
    by decide +kernel⟩

/-- The statements about a TICK under each policy, on a crossing (phase 192 + 64 = 256) and with S = 0 < T = 128:
TickAddsTheIncrement, TickLeavesTheForegroundRegisters, NonePolicyFollowsTheTarget, TransitionPolicyMovesOneUnit,
WaitNewPhasePolicySnaps, TransitionPolicyConverges, DutyIsBiasedProduct, TickEmitsOneDutyPerVoice. -/
theorem witness_tick_policies :
    ∀ policy, let s := oneVoice policy 192 0 128
      let v : Voice := { held (cfgB policy) 120 0 128 with phase := 192 }
      s.Ready ∧ s.Inv ∧ s.cfg.policy = policy ∧ exec .tick s = .next (tickState s) ∧ s.voices[0]? = some v ∧
      readsTorn s.cfg v = false ∧ zeroCrossing s.cfg.P v.phase v.increment = true ∧ v.smoothed < v.targetVolume :=
  fun policy => ⟨ready_oneVoice policy, inv_oneVoice policy, rfl, tick_iff.2 ⟨ready_oneVoice policy, rfl⟩, rfl,
    by cases policy <;> rfl, by cases policy <;> decide +kernel, by cases policy <;> decide +kernel⟩

/-- The other clauses of TransitionPolicyMovesOneUnit: no crossing, S above T at the ends of the range, S equal to T. -/
theorem witness_TransitionPolicyMovesOneUnit :
    zeroCrossing 8 191 64 = false ∧ zeroCrossing 8 192 64 = true ∧
    (oneVoice .transition 192 255 0).Ready ∧ (oneVoice .transition 192 255 0).Inv ∧ (0#8) < 255#8 ∧
    (oneVoice .transition 192 5 5).Ready ∧ (oneVoice .transition 192 5 5).Inv :=
  ⟨by decide, by decide, ⟨by decide +kernel, rfl⟩, inv_of (by decide +kernel), by decide, ⟨by decide +kernel, rfl⟩,
    inv_of (by decide +kernel)⟩

/-- An assigned voice whose key has increment 0 (CFG-B, key 12). -/
theorem witness_ZeroIncrementVoiceStands :
    (bank (cfgB .transition) [held (cfgB .transition) 12 0 100]).Inv ∧
    exec .tick (bank (cfgB .transition) [held (cfgB .transition) 12 0 100]) =
      .next (tickState (bank (cfgB .transition) [held (cfgB .transition) 12 0 100])) ∧
    (held (cfgB .transition) 12 0 100).increment = 0 ∧
    readsTorn (cfgB .transition) (held (cfgB .transition) 12 0 100) = false :=
  ⟨inv_of (by decide +kernel), tick_iff.2 ⟨⟨by decide +kernel, rfl⟩, rfl⟩, by decide +kernel, by decide +kernel⟩

theorem witness_DutyIsMonotoneInVolume :
    (0#8) ≤ 255#8 ∧ 0 < (1#8).toInt ∧ (255#8).toInt < 0 ∧ (0#8).toInt = 0 := by decide

/-- A voice read torn, and one that is not. -/
theorem witness_TornReadLastsOneTick :
    exec .tick tornBank = .next (tickState tornBank) ∧ tornBank.cfg.atomicAssign = false ∧
    (∃ v, tornBank.voices[0]? = some v ∧ v.torn = true) ∧ (∃ v, tornBank.voices[1]? = some v ∧ v.torn = false) ∧
    fullBank.cfg.atomicAssign = true :=
  ⟨tick_iff.2 ⟨ready_tornBank, rfl⟩, rfl, ⟨_, rfl, rfl⟩, ⟨_, rfl, rfl⟩, rfl⟩

theorem witness_TickAndDecodeCommute :
    (fullBank.withDec ⟨.decodeStatus, 0x90, .ignore, 0⟩).Ready ∧
    (fullBank.withDec ⟨.decodeStatus, 0x90, .ignore, 0⟩).dec.state = .decodeStatus := ⟨ready_fullBank, rfl⟩

/-- A run of ticks as the iterate of one tick. -/
theorem ticks_eq {s : State} (hr : s.Ready) (n : Nat) : ticks n s = .next (tickState^[n] s) := by
  induction n with
  | zero => rfl
  | succ n ih =>
    have hrn : (tickState^[n] s).Ready := by
      obtain ⟨t, ht, h, _⟩ := ticks_next s hr n
      rw [ih] at ht; cases ht; exact h
    rw [ticks, ih, andThen_next, Function.iterate_succ_apply']
    exact tick_iff.2 ⟨hrn, rfl⟩

theorem crosses_iff_iterate {s : State} (hr : s.Ready) (i t : Nat) :
    crossesAtTick s i t ↔ 1 ≤ t ∧ ((tickState^[t - 1] s).voices[i]?).any
      (fun w => zeroCrossing s.cfg.P w.phase w.increment) = true := by
  simp only [crossesAtTick, ticks_eq hr, Option.any_eq_true, Host.Outcome.next.injEq, ← Option.mem_def]
  constructor
  · rintro ⟨h, u, w, rfl, hw, hz⟩; exact ⟨h, w, hw, hz⟩
  · rintro ⟨h, w, hw, hz⟩; exact ⟨h, _, w, rfl, hw, hz⟩

/-- PhaseAfterTicks, PhasePeriod and ZeroCrossingSpacing: increment 64 from phase 192 crosses at ticks 1 and 5 and at none
between. -/
theorem witness_ZeroCrossingSpacing :
    let s := oneVoice .transition 192 0 128
    let v : Voice := { held (cfgB .transition) 120 0 128 with phase := 192 }
    s.Ready ∧ s.Inv ∧ s.voices[0]? = some v ∧ readsTorn s.cfg v = false ∧ 0 < v.increment ∧
    crossesAtTick s 0 1 ∧ crossesAtTick s 0 5 ∧ ∀ t, 1 < t → t < 5 → ¬crossesAtTick s 0 t := by
  have hr := ready_oneVoice .transition
  refine ⟨hr, inv_oneVoice _, rfl, rfl, by decide +kernel, ?_, ?_, ?_⟩
  · rw [crosses_iff_iterate hr]; decide +kernel
  · rw [crosses_iff_iterate hr]; decide +kernel
  · intro t h1 h5
    rw [crosses_iff_iterate hr]
    obtain rfl | rfl | rfl : t = 2 ∨ t = 3 ∨ t = 4 := by omega
    all_goals decide +kernel

/-- ResetBankIsSilent, InvariantsHoldAfterReset, ResetSetsEveryRegister, IncrementOfKey: the configurations of
95_test_vectors.md and the least one are valid. -/
theorem witness_valid_configurations :
    ([.cfgA, cfgB .none, cfgB .transition, cfgB .waitNewPhase, cfgC, cfgLeast] : List Config).all configValid = true := by
  decide +kernel

/-- NoteOnMessageIsNoteOn and NoteOffMessagesAreNoteOff. -/
theorem witness_NoteOnMessageIsNoteOn :
    fullBank.Ready ∧ fullBank.Inv ∧ fullBank.dec.state = .seekStatus ∧ (1 : Data7) ≠ 0 :=
  ⟨ready_fullBank, inv_fullBank, rfl, by decide⟩

theorem witness_SilentMessagesChangeLatchesOnly :
    fullBank.Ready ∧ fullBank.dec.state = .seekStatus ∧ (1 : Channel) ≠ fullBank.cfg.midiChannel :=
  ⟨ready_fullBank, rfl, by decide +kernel⟩

theorem witness_MessageIsItsThreeBytes : isStatusByte 0x80 = true ∧ isStatusByte 0xFF = true ∧
    fullBank.dec.state = .seekStatus := ⟨by decide, by decide, rfl⟩

theorem witness_EveryMessageRealigns :
    let s := fullBank.withSchedule [.byte 0xF0, .byte 0x90, .byte 0x80, .strobe .tick]
    s.Ready ∧ s.Inv ∧ isStatusByte 0xF0 = true ∧ s.dec.state = .seekStatus ∧
    s.schedule = .byte 0xF0 :: .byte 0x90 :: .byte 0x80 :: [.strobe .tick] :=
  ⟨ready_fullBank, inv_withSchedule inv_fullBank _, by decide, rfl, rfl⟩

/-- EveryEnabledOperationCompletes: a ready state with the invariants at each position. -/
theorem witness_EveryEnabledOperationCompletes :
    ∀ st : DecState, (fullBank.withDec ⟨st, 0x90, .on, 0x3C⟩).Ready ∧ (fullBank.withDec ⟨st, 0x90, .on, 0x3C⟩).Inv ∧
      (fullBank.withDec ⟨st, 0x90, .on, 0x3C⟩).dec.state = st ∧ Instr.tick.enabledAt st = true :=
  fun _ => ⟨ready_fullBank, inv_withDec inv_fullBank _, rfl, rfl⟩

theorem witness_NothingRunsBeforeReset :
    configValid unbooted.cfg = true ∧ unbooted.booted = false ∧ Instr.tick ≠ .reset := by decide +kernel

/-- InvalidConfigurationIsRefused: one configuration just outside each constraint. -/
theorem witness_InvalidConfigurationIsRefused :
    ([{ cfgLeast with N := 0 }, { cfgLeast with P := 7, freqTable := List.replicate 12 0 }, { cfgLeast with maxOctave := 8 },
      { cfgLeast with freqTable := List.replicate 11 0 }, { cfgLeast with freqTable := List.replicate 12 256 },
      { cfgLeast with velocityMap := List.replicate 127 0 }, { cfgLeast with velocityMap := 1 :: List.replicate 127 0 },
      { cfgLeast with N := 2 }] : List Config).all (fun cfg => !configValid cfg) = true := by decide +kernel

/-- ConfigurationIsNeverWritten and StepKeepsTheInvariants: a state whose step answers a next state, not by waiting. -/
theorem witness_StepKeepsTheInvariants :
    (fullBank.withSchedule [.strobe .tick]).Inv ∧
    step (fullBank.withSchedule [.strobe .tick]) = .next (tickState (fullBank.withSchedule [])) := by
  refine ⟨inv_withSchedule inv_fullBank _, ?_⟩
  rw [step, if_pos (show configValid (fullBank.withSchedule [.strobe .tick]).cfg = true from ready_fullBank.1)]
  exact tick_iff.2 ⟨ready_fullBank, rfl⟩

/-- ReadyStatesStepToReadyStates, at each position, with a byte next. -/
theorem witness_ReadyStatesStepToReadyStates :
    ∀ st : DecState, let s := (fullBank.withDec ⟨st, 0x90, .on, 0x3C⟩).withSchedule [.byte 0xFF]
      s.Ready ∧ s.Inv ∧ s.dec.state = st :=
  fun _ => ⟨ready_fullBank, inv_withSchedule (inv_withDec inv_fullBank _) _, rfl⟩

theorem witness_NoReachableStateStops :
    Reachable ((State.resetWith cfgC).withSchedule [.message 0x90 0x3C 0x64, .strobe .tick]) :=
  .start cfgC _ (by decide +kernel)

theorem witness_IncrementOfKey : configValid Config.cfgA = true := by decide +kernel

/-- OctaveDoublesTheIncrement, at both ends of the keys. -/
theorem witness_OctaveDoublesTheIncrement :
    configValid Config.cfgA = true ∧ (12#7).toNat = (0#7).toNat + 12 ∧ (127#7).toNat = (115#7).toNat + 12 := by decide +kernel

end Sys2Proof.Tests
end

section
/-! PROOFS. The phase accumulator (41_phase_accumulator.md): the addend a tick reads, the addition with its carry, and O24. -/

namespace Sys2Proof.Machine

/-- A voice not read torn steps on its stored increment (41_phase_accumulator.md R124). -/
theorem tickIncrement_of_not_torn {cfg : Config} {v : Voice} (h : readsTorn cfg v = false) (n i : Nat) :
    tickIncrement cfg n i v = v.increment := by
  simp [tickIncrement, h]

/-- The addend is a `P`-bit value: stored, or reduced from the draw of a torn read (60_exceptions.md R306). -/
theorem tickIncrement_lt {cfg : Config} {v : Voice} (hv : v.increment < 2 ^ cfg.P) (n i : Nat) :
    tickIncrement cfg n i v < 2 ^ cfg.P := by
  unfold tickIncrement
  split
  · exact Nat.mod_lt _ (Nat.two_pow_pos _)
  · exact hv

@[simp] theorem tickVoice_phase (cfg : Config) (n i : Nat) (v : Voice) :
    (tickVoice cfg n i v).phase = phaseSum cfg.P v.phase (tickIncrement cfg n i v) := rfl

theorem phaseSum_lt (P a b : Nat) : phaseSum P a b < 2 ^ P := Nat.mod_lt _ (Nat.two_pow_pos P)

/-- The addition of two `P`-bit values loses nothing: the sum and its one carry bit (41_phase_accumulator.md R120). -/
theorem phaseSum_add_carry {P a b : Nat} (ha : a < 2 ^ P) (hb : b < 2 ^ P) :
    phaseSum P a b + 2 ^ P * (zeroCrossing P a b).toNat = a + b := by
  unfold phaseSum zeroCrossing
  by_cases hc : 2 ^ P ≤ a + b
  · have hmod : (a + b) % 2 ^ P = a + b - 2 ^ P := by
      rw [Nat.mod_eq_sub_mod hc, Nat.mod_eq_of_lt (by omega)]
    rw [hmod, decide_eq_true hc, Bool.toNat_true]
    omega
  · rw [Nat.mod_eq_of_lt (by omega), decide_eq_false hc, Bool.toNat_false]
    omega

/-- Settles O24: the addend is what the tick reads, and the phase addition loses nothing but its carry. -/
theorem tickAddsTheIncrement : Obligations.TickAddsTheIncrement := by
  intro s hr hi
  refine ⟨tickState s, tick_iff.2 ⟨hr, rfl⟩, (tick_inv hi).voiceCount, fun i v hv => ?_⟩
  obtain ⟨hphase, hincr⟩ := hi.phaseWidth v (List.mem_of_getElem? hv)
  have haddend := tickIncrement_lt hincr s.draws i
  refine ⟨tickIncrement s.cfg s.draws i v, tickVoice s.cfg s.draws i v, ?_, haddend,
    fun ht => tickIncrement_of_not_torn ht _ _, ?_, ?_⟩
  · rw [tickState_voices, tickVoices_getElem?, hv, Option.map_some]
  · rw [tickVoice_phase]
    exact phaseSum_lt _ _ _
  · rw [tickVoice_phase]
    exact phaseSum_add_carry hphase haddend

end Sys2Proof.Machine
end

section
/-! PROOFS. The envelope smoother (42_envelope_smoother.md): what one step of it writes under each policy, the voice a TICK
leaves, and O26, O27, O28. -/

namespace Sys2Proof.Machine

/-- A crossing is needed to move the stored volume, under every policy (R141, R142, R143). -/
@[simp] theorem smooth_of_no_crossing (policy : Policy) (T S : Byte) : smooth policy false T S = S := by
  cases policy <;> rfl

@[simp] theorem smooth_none (zc : Bool) (T S : Byte) : smooth .none zc T S = S := rfl

theorem smooth_waitNewPhase (zc : Bool) (T S : Byte) : smooth .waitNewPhase zc T S = if zc then T else S := rfl

/-- Below the target there is room above: the increment does not wrap (R142 (c)). -/
theorem smooth_transition_of_lt {T S : Byte} (h : S < T) : (smooth .transition true T S).toNat = S.toNat + 1 := by
  have hstep : smooth .transition true T S = S + 1 := by simp [smooth, h]
  rw [hstep]
  bv_omega

/-- Above the target there is room below: the decrement does not wrap (R142 (c)). -/
theorem smooth_transition_of_gt {T S : Byte} (h : T < S) : (smooth .transition true T S).toNat + 1 = S.toNat := by
  have hstep : smooth .transition true T S = S - 1 := by simp [smooth, h, BitVec.lt_asymm h]
  rw [hstep]
  bv_omega

theorem smooth_transition_self (zc : Bool) (T : Byte) : smooth .transition zc T T = T := by
  cases zc <;> simp [smooth]

@[simp] theorem stepVoice_targetVolume (cfg : Config) (I : Nat) (T : Byte) (v : Voice) :
    (stepVoice cfg I T v).targetVolume = v.targetVolume := rfl

theorem stepVoice_smoothed (cfg : Config) (I : Nat) (T : Byte) (v : Voice) :
    (stepVoice cfg I T v).smoothed = smooth cfg.policy (zeroCrossing cfg.P v.phase I) T v.smoothed := rfl

/-- The duty is that of the phase the step wrote and, when the step reads the stored target, of the volume it left
(43_pwm_duty_gen.md R160). -/
theorem stepVoice_duty (cfg : Config) (I : Nat) (v : Voice) :
    (stepVoice cfg I v.targetVolume v).duty =
      dutyOf ((stepVoice cfg I v.targetVolume v).smoothedVolume cfg)
        (wavLookup cfg.P (stepVoice cfg I v.targetVolume v).phase) := rfl

theorem smoothedVolume_of_none {cfg : Config} (h : cfg.policy = .none) (v : Voice) :
    v.smoothedVolume cfg = v.targetVolume := if_pos h

/-- The voice a completed TICK leaves, of one not read torn: its three steps on what is stored. -/
theorem execTick_voice {s t : State} (h : exec .tick s = .next t) {i : Nat} {v : Voice} (hv : s.voices[i]? = some v)
    (ht : readsTorn s.cfg v = false) :
    t.voices[i]? = some (stepVoice s.cfg v.increment v.targetVolume v) := by
  obtain ⟨-, rfl⟩ := tick_iff.1 h
  exact tick_voice hv ht

/-- Settles O27: R142 on the voice the TICK leaves, by the crossing and the order of volume and target. -/
theorem transitionPolicyMovesOneUnit : Obligations.TransitionPolicyMovesOneUnit := by
  intro s t hpolicy h i v hv ht
  refine ⟨_, execTick_voice h hv ht, fun hzc => ?_, fun hzc => ⟨fun hlt => ?_, fun hgt => ?_, fun heq => ?_⟩⟩ <;>
    rw [stepVoice_smoothed, hpolicy, hzc]
  · exact smooth_of_no_crossing _ _ _
  · exact smooth_transition_of_lt hlt
  · exact smooth_transition_of_gt hgt
  · rw [heq, smooth_transition_self]

/-- Settles O26: under NONE the read volume is the alias of the target, and the duty is that of the read volume. -/
theorem nonePolicyFollowsTheTarget : Obligations.NonePolicyFollowsTheTarget := by
  intro s t hpolicy h i v hv ht
  have halias := smoothedVolume_of_none hpolicy (stepVoice s.cfg v.increment v.targetVolume v)
  refine ⟨_, execTick_voice h hv ht, ?_, halias, ?_⟩
  · rw [stepVoice_smoothed, hpolicy, smooth_none]
  · rw [stepVoice_duty, halias, stepVoice_targetVolume]

/-- Settles O28: R143 on the voice the TICK leaves. -/
theorem waitNewPhasePolicySnaps : Obligations.WaitNewPhasePolicySnaps := by
  intro s t hpolicy h i v hv ht
  refine ⟨_, execTick_voice h hv ht, ?_⟩
  rw [stepVoice_smoothed, hpolicy, smooth_waitNewPhase]

end Sys2Proof.Machine
end

section
/-! PROOFS. The voice allocator (44_voice_allocator.md): what a note-off releases, the voice a note-on assigns, and
O20, O21. -/

namespace Sys2Proof.Machine

/-- A note-off of a key no voice holds is a no-op (R196 (a)). -/
theorem noteOffState_of_no_holder {key : Data7} {s : State} (h : ∀ v ∈ s.voices, v.currentKey ≠ keyByte key) :
    noteOffState key s = s := by
  rcases noteOffState_cases key s with ⟨-, hsame⟩ | ⟨i, v, -, hv, hk, -⟩
  · exact hsame
  · exact absurd hk (h v (List.mem_of_getElem? hv))

/-- The scan finds the given holder of the key, because INV1 leaves it no other (R196). -/
theorem noteOffState_of_holder {s : State} (hi : s.Inv) {key : Data7} {i : Nat} {v : Voice}
    (hv : s.voices[i]? = some v) (hk : v.currentKey = keyByte key) : noteOffState key s = release i key v s := by
  rcases noteOffState_cases key s with ⟨hnone, -⟩ | ⟨j, w, -, hw, hwk, hrel⟩
  · exact absurd hk (findKey_eq_none_iff.1 hnone v (List.mem_of_getElem? hv))
  · obtain rfl : i = j := Inv.key_unique hi hv hw (hk.trans hwk.symm) (by simp [hk])
    obtain rfl : v = w := Option.some.inj (hv.symm.trans hw)
    exact hrel

/-- An assigned voice is counted (INV3), so `numActive` has something to give back. -/
theorem one_le_numActive {s : State} (hi : s.Inv) {v : Voice} (hv : v ∈ s.voices) (ha : v.assigned = true) :
    1 ≤ s.numActive := by
  rw [hi.inv3.1]
  exact List.countP_pos_iff.2 ⟨v, hv, ha⟩

/-- The decrement of a non-zero `numActive` does not wrap, so a release is R196's five writes and no other. -/
theorem release_eq {s : State} (hpos : 1 ≤ s.numActive) (hle : s.numActive ≤ s.cfg.N) (i : Nat) (key : Data7)
    (v : Voice) : release i key v s = { s with
      voices := s.voices.set i (releaseVoice s.cfg v)
      et := clearTone s.et key.toNat
      numActive := s.numActive - 1 } := by
  have hN := lt_two_pow_activeWidth s.cfg
  have hdec : (s.numActive + (2 ^ activeWidth s.cfg - 1)) % 2 ^ activeWidth s.cfg = s.numActive - 1 := by
    rw [show s.numActive + (2 ^ activeWidth s.cfg - 1) = s.numActive - 1 + 2 ^ activeWidth s.cfg by omega,
      Nat.add_mod_right, Nat.mod_eq_of_lt (by omega)]
  rw [← hdec]
  rfl

/-- A release silences its key and no other. -/
theorem release_sounds (i : Nat) (key : Data7) (v : Voice) (s : State) (k : Data7) :
    (release i key v s).sounds k = (s.sounds k && decide (k ≠ key)) := by
  have hkey : key.toNat ≠ k.toNat ↔ k ≠ key := by rw [ne_comm, ne_eq, BitVec.toNat_inj]
  simp only [State.sounds, release, withNumActive_et, withEt_et, clearTone_getLsbD, hkey, Bool.and_comm]

/-- INV2, for a key that does not sound. -/
theorem sounds_eq_false_iff {s : State} (hi : s.Inv) {key : Data7} :
    s.sounds key = false ↔ ∀ v ∈ s.voices, v.currentKey ≠ keyByte key := by
  rw [← Bool.not_eq_true, hi.inv2 key]
  push Not
  rfl

/-- Settles O20: without a holder nothing is found; the holder is released, and the count it gives back was positive. -/
theorem noteOffReleasesTheVoice : Obligations.NoteOffReleasesTheVoice := by
  intro s key vel hr
  refine ⟨fun hno => ?_, fun i v hi hv hk => ?_⟩
  · rw [exec_off hr, noteOffState_of_no_holder hno]
  · have hpos : 1 ≤ s.numActive := one_le_numActive hi (List.mem_of_getElem? hv) (by simp [assigned_iff, hk])
    refine ⟨release i key v s, ?_, ?_, hpos, release_sounds i key v s⟩
    · rw [exec_off hr, noteOffState_of_holder hi hv hk]
    · rw [release_eq hpos hi.inv3.2]
      rfl

/-- `age_bump(except = i)` leaves voice `i` (R187). -/
theorem ageBump_getElem?_self (cfg : Config) (i : Nat) (vs : List Voice) : (ageBump cfg i vs)[i]? = vs[i]? := by
  rw [ageBump_getElem?]
  cases vs[i]? with
  | none => rfl
  | some v => rw [Option.map_some, bumpVoice_self]

/-- Each of the three branches of a note-on ends with the assigned voice in the register file (R190): the two that age
voices leave out the one they assigned. -/
theorem noteOn_assigns {key vel : Data7} {s t : State} (h : noteOn key vel s = .next t) :
    ∃ (i : Nat) (v : Voice), s.voices[i]? = some v ∧ t.voices[i]? = some (assignVoice s.cfg key vel v) := by
  obtain ⟨i, v, hv, hbranch⟩ := noteOn_cases h
  have hset : (s.voices.set i (assignVoice s.cfg key vel v))[i]? = some (assignVoice s.cfg key vel v) :=
    List.getElem?_set_self (List.getElem?_eq_some_iff.1 hv).1
  refine ⟨i, v, hv, ?_⟩
  rcases hbranch with ⟨-, -, rfl⟩ | ⟨-, -, -, rfl⟩ | ⟨-, -, -, rfl⟩
  · exact hset
  · exact (ageBump_getElem?_self _ _ _).trans hset
  · exact (ageBump_getElem?_self _ _ _).trans hset

/-- After a note-off its key is silent: it was already (INV2), or the release cleared it. -/
theorem noteOffState_silences {s : State} (hi : s.Inv) (key : Data7) : (noteOffState key s).sounds key = false := by
  rcases noteOffState_cases key s with ⟨hnone, hsame⟩ | ⟨i, v, -, -, -, hrel⟩
  · rw [hsame, sounds_eq_false_iff hi]
    exact findKey_eq_none_iff.1 hnone
  · rw [hrel, release_sounds, decide_eq_false (not_not_intro rfl), Bool.and_false]

/-- A note-off of a sounding key gives back one voice (R196). -/
theorem noteOffState_numActive {s : State} (hi : s.Inv) {key : Data7} (hs : s.sounds key = true) :
    (noteOffState key s).numActive + 1 = s.numActive := by
  obtain ⟨v, hmem, hk⟩ := (hi.inv2 key).1 hs
  obtain ⟨i, hv⟩ := List.mem_iff_getElem?.1 hmem
  have hpos : 1 ≤ s.numActive := one_le_numActive hi hmem (by simp [assigned_iff, hk])
  rw [noteOffState_of_holder hi hv hk, release_eq hpos hi.inv3.2]
  exact Nat.sub_add_cancel hpos

/-- Settles O21: a note-on completes on the voice it assigns, a note-off on the release or the no-op; which keys sound
afterwards is INV2 of the state reached. -/
theorem allocatorNeverFails : Obligations.AllocatorNeverFails := by
  intro s key vel hr hi
  constructor
  · obtain ⟨t, ht⟩ := noteOn_completes hr.1 hi key vel
    obtain ⟨i, v, -, hassigned⟩ := noteOn_assigns ht
    have hmem := List.mem_of_getElem? hassigned
    have hsounds : t.sounds key = true := ((noteOn_inv hr.1 hi ht).inv2 key).2 ⟨_, hmem, rfl⟩
    exact ⟨t, (exec_on hr key vel).trans ht, hsounds, _, hmem, rfl, rfl, rfl, rfl⟩
  · have hsilent := noteOffState_silences hi key
    exact ⟨noteOffState key s, exec_off hr key vel, hsilent, (sounds_eq_false_iff (noteOff_inv hi)).1 hsilent,
      noteOffState_numActive hi, fun hs => noteOffState_of_no_holder ((sounds_eq_false_iff hi).1 hs)⟩

end Sys2Proof.Machine
end

section
/-! PROOFS. The MIDI decoder (45_midi_decoder.md): which command the second parameter dispatches, and O9, O10, O13. -/

namespace Sys2Proof.Machine

/-- A decoder row at the position that enables it performs its transition. -/
theorem whenReady_whenAt {st : DecState} {s : State} (hr : s.Ready) (hs : s.dec.state = st) (r : Result) :
    whenReady s (whenAt st s r) = r := by
  rw [whenReady_of_ready hr, whenAt_of_at hs]

/-- Settles O9: R220, at the position that enables the row. -/
theorem seekStatusDiscardsDataByte : Obligations.SeekStatusDiscardsDataByte := by
  intro s _ hr hs
  exact whenReady_whenAt hr hs (.next s)

/-- Settles O10: R221, whose one write is `latchStatus`. -/
theorem seekStatusTakesStatusByte : Obligations.SeekStatusTakesStatusByte := by
  intro s c h hr hs
  exact whenReady_whenAt hr hs (.next (latchStatus (statusByte c h) s))

/-- A marked parameter drops the command, whatever the kind (30_encoding.md R75). -/
theorem dispatch_of_msb {k v : Byte} (h : k.msb = true ∨ v.msb = true) (kind : Kind) (s : State) :
    dispatch kind k v s = .next s :=
  if_pos (Bool.or_eq_true_iff.2 h)

theorem dispatch_ignore (k v : Byte) (s : State) : dispatch .ignore k v s = .next s := ite_self _

/-- Unmarked parameters pass the test of bits 7. -/
theorem not_marked_of_msb_eq_false {k v : Byte} (hk : k.msb = false) (hv : v.msb = false) :
    ¬(isStatusByte k || isStatusByte v) = true := by
  simp [isStatusByte, hk, hv]

theorem dispatch_off {k v : Byte} (hk : k.msb = false) (hv : v.msb = false) (s : State) :
    dispatch .off k v s = noteOff (low7 k) (low7 v) s :=
  if_neg (not_marked_of_msb_eq_false hk hv)

/-- Velocity 0 is a note-off, any other a note-on (R229). -/
theorem dispatch_on {k v : Byte} (hk : k.msb = false) (hv : v.msb = false) (s : State) :
    dispatch .on k v s = if v = 0 then noteOff (low7 k) 0 s else noteOn (low7 k) (low7 v) s :=
  if_neg (not_marked_of_msb_eq_false hk hv)

/-- Settles O13: R224's cases of `dispatch`, each the command port's command on the state the message ends in. -/
theorem readParam2Dispatches : Obligations.ReadParam2Dispatches := by
  intro s v hr hs k s1
  have hr1 : s1.Ready := hr
  have hrun : exec (.rxParam2 v) s = dispatch s.dec.kind k v s1 := exec_param2 hr hs
  refine ⟨fun hmarked => ?_, fun hk hv hkind => ?_, fun hk hzero hkind => ?_, fun hk hv hne hkind => ?_,
    fun hkind => ?_⟩
  · rw [hrun, dispatch_of_msb hmarked]
  · rw [hrun, hkind, dispatch_off hk hv, exec_off hr1, noteOff]
  · have hv : v.msb = false := by rw [hzero]; rfl
    rw [hrun, hkind, dispatch_on hk hv, if_pos hzero, exec_off hr1, noteOff]
  · rw [hrun, hkind, dispatch_on hk hv, if_neg hne, exec_on hr1]
  · rw [hrun, hkind, dispatch_ignore]

end Sys2Proof.Machine
end

section
/-! PROOFS. The encoding (30_encoding.md): what the decoder promises of the operation it
reads, and O1 to O4. -/

namespace Sys2Proof

/-- What the decoder promises of the operation it reads from an input. -/
structure Instr.Reads (st : DecState) (ch : Channel) (e : Input) (i : Instr) : Prop where
  encodes : encode i = e
  wf : i.wf ch = true
  canonical : i.canonical = true
  enabled : i.enabledAt st = true

/-- Settles O1, row by row. -/
theorem decodeOfEncodeIsTheOperation : Obligations.DecodeOfEncodeIsTheOperation := by
  intro st ch i
  cases i with
  | rxSeekData d => exact Laws.RoundTrip.rxSeekData d st ch
  | rxSeekStatus c h => exact Laws.RoundTrip.rxSeekStatus c h st ch
  | decode => exact Laws.RoundTrip.decode st ch
  | rxParam1 k => exact Laws.RoundTrip.rxParam1 k st ch
  | rxParam2 v => exact Laws.RoundTrip.rxParam2 v st ch
  | msgNoteOff h k v => exact Laws.RoundTrip.msgNoteOff h k v st ch
  | msgNoteOn h k v => exact Laws.RoundTrip.msgNoteOn h k v st ch
  | msgNoteOnV0 h k => exact Laws.RoundTrip.msgNoteOnV0 h k st ch
  | msgNotServiced c h k v => exact Laws.RoundTrip.msgNotServiced c h k v st ch
  | msgKeyBit7 c h k v => exact Laws.RoundTrip.msgKeyBit7 c h k v st ch
  | msgVelBit7 c h k v => exact Laws.RoundTrip.msgVelBit7 c h k v st ch
  | msgIgnoredA h k v => exact Laws.RoundTrip.msgIgnoredA h k v st ch
  | msgIgnoredB h k v => exact Laws.RoundTrip.msgIgnoredB h k v st ch
  | msgIgnoredC h k v => exact Laws.RoundTrip.msgIgnoredC h k v st ch
  | msgIgnoredD h k v => exact Laws.RoundTrip.msgIgnoredD h k v st ch
  | msgIgnoredE h k v => exact Laws.RoundTrip.msgIgnoredE h k v st ch
  | msgIgnoredF h k v => exact Laws.RoundTrip.msgIgnoredF h k v st ch
  | cmdNoteOn k v => exact Laws.RoundTrip.cmdNoteOn k v st ch
  | cmdNoteOff k v => exact Laws.RoundTrip.cmdNoteOff k v st ch
  | tick => exact Laws.RoundTrip.tick st ch
  | reset => exact Laws.RoundTrip.reset st ch

theorem decodeStrobe_reads {st : DecState} {line : Strobe} {i : Instr} (h : decodeStrobe st line = .ok i)
    (ch : Channel) : i.Reads st ch (.strobe line) := by
  cases line with
  | tick => cases h; exact ⟨rfl, rfl, rfl, rfl⟩
  | reset => cases h; exact ⟨rfl, rfl, rfl, rfl⟩
  | internal =>
    by_cases hst : st = .decodeStatus
    · rw [decodeStrobe, if_pos hst] at h
      cases h
      exact ⟨rfl, rfl, rfl, beq_iff_eq.2 hst⟩
    · rw [decodeStrobe, if_neg hst] at h
      cases h

theorem decodeByte_reads {st : DecState} {b : Byte} {i : Instr} (h : decodeByte st b = .ok i) (ch : Channel) :
    i.Reads st ch (.byte b) := by
  cases st with
  | seekStatus =>
    by_cases hb : isStatusByte b = true
    · rw [decodeByte, if_pos hb] at h
      cases h
      exact ⟨congrArg Input.byte (statusByte_fields b hb), rfl, rfl, rfl⟩
    · rw [decodeByte, if_neg hb] at h
      cases h
      exact ⟨congrArg Input.byte (dataByte_low7 b (Bool.eq_false_of_not_eq_true hb)), rfl, rfl, rfl⟩
  | decodeStatus => cases h
  | readParam1 => cases h; exact ⟨rfl, rfl, rfl, rfl⟩
  | readParam2 => cases h; exact ⟨rfl, rfl, rfl, rfl⟩

theorem decodePort_reads (st : DecState) (ch : Channel) (w : PortWord) : (decodePort w).Reads st ch (.port w) := by
  have hw := portWord_fields w
  by_cases hop : w.msb = true
  · rw [if_pos hop] at hw
    rw [decodePort, if_pos hop]
    exact ⟨congrArg Input.port hw, rfl, rfl, rfl⟩
  · rw [if_neg hop] at hw
    rw [decodePort, if_neg hop]
    exact ⟨congrArg Input.port hw, rfl, rfl, rfl⟩

/-- A message of command 0 or 1 with neither parameter marked is read by its channel, its command, its velocity. -/
theorem decodeNoteMessage_reads_unmarked (st : DecState) (ch : Channel) {c : Cmd} (hc : c < 2) (h : Channel)
    {k v : Byte} (hk : isStatusByte k = false) (hv : isStatusByte v = false) :
    (decodeNoteMessage ch c h k v).Reads st ch (.message (statusByte c h) k v) := by
  have hkey := dataByte_low7 k hk
  have hvel := dataByte_low7 v hv
  rw [decodeNoteMessage, if_neg (by simp [hk]), if_neg (by simp [hv])]
  by_cases hch : h = ch
  · rw [if_neg (not_not_intro hch)]
    by_cases hoff : c = 0#3
    · rw [if_pos hoff]
      exact ⟨by simp only [encode, hkey, hvel, hoff], beq_iff_eq.2 hch, rfl, rfl⟩
    · have hon : c = 1#3 := (Laws.RoundTrip.note_command c hc).resolve_left hoff
      rw [if_neg hoff]
      by_cases hzero : low7 v = 0#7
      · rw [if_pos hzero]
        rw [hzero] at hvel
        exact ⟨by simp only [encode, hkey, hvel, hon], beq_iff_eq.2 hch, rfl, rfl⟩
      · rw [if_neg hzero]
        exact ⟨by simp only [encode, hkey, hvel, hon], by simp [Instr.wf, hch, hzero], rfl, rfl⟩
  · rw [if_pos hch]
    refine ⟨rfl, bne_iff_ne.2 hch, ?_, rfl⟩
    rw [Instr.canonical, decide_eq_true hc, Laws.RoundTrip.msb_eq_isStatusByte, Laws.RoundTrip.msb_eq_isStatusByte, hk,
      hv]
    rfl

/-- A message of command 0 or 1 is read by its first parameter, then its second, then as an unmarked one (R75). -/
theorem decodeNoteMessage_reads (st : DecState) (ch : Channel) {c : Cmd} (hc : c < 2) (h : Channel) (k v : Byte) :
    (decodeNoteMessage ch c h k v).Reads st ch (.message (statusByte c h) k v) := by
  by_cases hk : isStatusByte k = true
  · rw [decodeNoteMessage, if_pos hk]
    exact ⟨congrArg (Input.message _ · v) (markedByte_low7 k hk), rfl, decide_eq_true hc, rfl⟩
  · have hk' := Bool.eq_false_of_not_eq_true hk
    by_cases hv : isStatusByte v = true
    · rw [decodeNoteMessage, if_neg hk, if_pos hv]
      refine ⟨congrArg (Input.message _ k) (markedByte_low7 v hv), rfl, ?_, rfl⟩
      rw [Instr.canonical, decide_eq_true hc, Laws.RoundTrip.msb_eq_isStatusByte, hk']
      rfl
    · exact decodeNoteMessage_reads_unmarked st ch hc h hk' (Bool.eq_false_of_not_eq_true hv)

/-- Commands 2 to 7 name their row, whatever the rest of the message (R82). -/
theorem decodeMessageRow_reads (st : DecState) (ch : Channel) (c : Cmd) (h : Channel) (k v : Byte) :
    (decodeMessageRow ch c h k v).Reads st ch (.message (statusByte c h) k v) := by
  by_cases hc : c < 2
  · have hrow : decodeMessageRow ch c h k v = decodeNoteMessage ch c h k v := by
      rcases Laws.RoundTrip.note_command c hc with rfl | rfl <;> rfl
    rw [hrow]
    exact decodeNoteMessage_reads st ch hc h k v
  · have hother : ∀ c : Cmd, ¬c < 2 → c = 2#3 ∨ c = 3#3 ∨ c = 4#3 ∨ c = 5#3 ∨ c = 6#3 ∨ c = 7#3 := by decide
    rcases hother c hc with rfl | rfl | rfl | rfl | rfl | rfl <;> exact ⟨rfl, rfl, rfl, rfl⟩

theorem decodeMessage_of_status {b : Byte} (hb : isStatusByte b = true) (ch : Channel) (k v : Byte) :
    decodeMessage ch b k v = .ok (decodeMessageRow ch (statusCmd b) (statusChannel b) k v) := if_pos hb

theorem decodeMessage_reads {b k v : Byte} {ch : Channel} {i : Instr} (h : decodeMessage ch b k v = .ok i)
    (st : DecState) : i.Reads st ch (.message b k v) := by
  by_cases hb : isStatusByte b = true
  · rw [decodeMessage_of_status hb] at h
    cases h
    have hrow := decodeMessageRow_reads st ch (statusCmd b) (statusChannel b) k v
    rwa [statusByte_fields b hb] at hrow
  · rw [decodeMessage, if_neg hb] at h
    cases h

theorem decodeInput_reads {st : DecState} {ch : Channel} {e : Input} {i : Instr} (h : decodeInput st ch e = .ok i) :
    i.Reads st ch e := by
  cases e with
  | strobe line => exact decodeStrobe_reads h ch
  | byte b => exact decodeByte_reads h ch
  | port w => cases h; exact decodePort_reads st ch w
  | message b k v => exact decodeMessage_reads h st

/-- Settles O2, by the form of the input. -/
theorem encodeOfDecodeIsTheInput : Obligations.EncodeOfDecodeIsTheInput := by
  intro st ch e i h
  obtain ⟨hencodes, hwf, hcanonical, henabled⟩ := decodeInput_reads h
  exact ⟨hencodes, hwf, hcanonical, henabled⟩

/-- Only words of messages have several rows (30_encoding.md section 3). -/
theorem canonical_or_message (i : Instr) :
    i.canonical = true ∨ ∃ b k v, isStatusByte b = true ∧ encode i = .message b k v := by
  cases i with
  | msgNotServiced c h k v => exact .inr ⟨_, _, _, isStatusByte_statusByte c h, rfl⟩
  | msgKeyBit7 c h k v => exact .inr ⟨_, _, _, isStatusByte_statusByte c h, rfl⟩
  | msgVelBit7 c h k v => exact .inr ⟨_, _, _, isStatusByte_statusByte c h, rfl⟩
  | _ => exact .inl rfl

/-- Settles O3: a canonical row is read back (O1), and two rows of one message act by the same three bytes. -/
theorem overlappingRowsHaveOneEffect : Obligations.OverlappingRowsHaveOneEffect := by
  intro st ch i hwf henabled
  rcases canonical_or_message i with hcanonical | ⟨b, k, v, hb, hi⟩
  · exact ⟨i, decodeOfEncodeIsTheOperation st ch i hwf hcanonical henabled, rfl, fun _ => rfl⟩
  · have hdecode := decodeMessage_of_status hb ch k v
    have hj := (decodeMessage_reads hdecode st).encodes
    refine ⟨_, ?_, hj.trans hi.symm, fun s => ?_⟩
    · rw [hi]
      exact hdecode
    · rw [Machine.exec_msg hj, Machine.exec_msg hi]

/-- Settles O4, by running the decoder on the fifteen inputs. -/
theorem specWordsDecode : Obligations.SpecWordsDecode := by
  unfold Obligations.SpecWordsDecode
  decide

end Sys2Proof
end

section
/-! PROOFS. The step and what every operation keeps: the gates before an operation (10_state.md R36,
70_reset_and_hazards.md R403, table of 45_midi_decoder.md), completion, the invariants of R32, and O5 to O8, O15, O45 to
O48, O50 to O53, O57. -/

namespace Sys2Proof.Machine

/-! ## The gates of an operation -/

/-- What operation `i` answers when its meaning, past every gate, is `r`. -/
def gated (i : Instr) (s : State) (r : Result) : Result :=
  whenReady s (if i.enabledAt s.dec.state then r else .refused .notEnabled)

/-- The gates of a row whose operation does not depend on the position. -/
theorem gated_of_always {i : Instr} {s : State} {r : Result} (henabled : i.enabledAt s.dec.state = true)
    (h : exec i s = whenReady s r) : ∃ r, exec i s = gated i s r :=
  ⟨r, by rw [gated, if_pos henabled, h]⟩

/-- The gates of a decoder row. -/
theorem gated_of_position {i : Instr} {s : State} {st : DecState} {r : Result}
    (henabled : i.enabledAt s.dec.state = (s.dec.state == st)) (h : exec i s = whenReady s (whenAt st s r)) :
    ∃ r, exec i s = gated i s r :=
  ⟨r, by simp only [h, gated, henabled, whenAt, beq_iff_eq]⟩

/-- Every operation but RESET is refused by configuration, then by the missing RESET, then by the decoder's position. -/
theorem exec_gated {i : Instr} (hi : i ≠ .reset) (s : State) : ∃ r, exec i s = gated i s r := by
  cases i with
  | rxSeekData d => exact gated_of_position rfl rfl
  | rxSeekStatus c h => exact gated_of_position rfl rfl
  | decode => exact gated_of_position rfl rfl
  | rxParam1 k => exact gated_of_position rfl rfl
  | rxParam2 v => exact gated_of_position rfl rfl
  | reset => exact absurd rfl hi
  | _ => exact gated_of_always rfl rfl

theorem exec_not_enabled {i : Instr} {s : State} (hi : i ≠ .reset) (hr : s.Ready)
    (hn : i.enabledAt s.dec.state = false) : exec i s = .refused .notEnabled := by
  obtain ⟨r, h⟩ := exec_gated hi s
  rw [h, gated, whenReady_of_ready hr, hn]
  rfl

/-- An operation that completes had passed every gate. -/
theorem ready_enabled_of_exec_next {i : Instr} {s t : State} (hi : i ≠ .reset) (h : exec i s = .next t) :
    s.Ready ∧ i.enabledAt s.dec.state = true := by
  obtain ⟨r, hgate⟩ := exec_gated hi s
  obtain ⟨hr, hnext⟩ := whenReady_eq_next_iff.1 (hgate.symm.trans h)
  by_cases he : i.enabledAt s.dec.state = true
  · exact ⟨hr, he⟩
  · rw [if_neg he] at hnext
    cases hnext

/-- Settles O15: off its position the gate of a decoder row refuses it. -/
theorem decoderRowsAreRefusedElsewhere : Obligations.DecoderRowsAreRefusedElsewhere := by
  intro s hr
  refine ⟨fun d hn => ?_, fun c h hn => ?_, fun hn => ?_, fun k hn => ?_, fun v hn => ?_⟩ <;>
    exact exec_not_enabled nofun hr (beq_eq_false_iff_ne.2 hn)

/-- Settles O47: the gate of the first RESET. -/
theorem nothingRunsBeforeReset : Obligations.NothingRunsBeforeReset := by
  intro i s hc hb hi
  obtain ⟨r, h⟩ := exec_gated hi s
  rw [h, gated, whenReady_not_booted hc hb]

theorem exec_invalid {s : State} (hc : configValid s.cfg = false) (i : Instr) :
    exec i s = .refused .invalidConfiguration := by
  by_cases hi : i = .reset
  · rw [hi]
    exact if_neg (by simp [hc])
  · obtain ⟨r, h⟩ := exec_gated hi s
    rw [h, gated, whenReady_not_valid hc]

theorem step_invalid {s : State} (hc : configValid s.cfg = false) : step s = .refused .invalidConfiguration :=
  if_neg (by simp [hc])

/-- Settles O48: the gate of the configuration, in the step and in every operation. -/
theorem invalidConfigurationIsRefused : Obligations.InvalidConfigurationIsRefused :=
  fun _ hc => ⟨step_invalid hc, exec_invalid hc⟩

/-! ## RESET -/

theorem execReset_of_valid {s : State} (hc : configValid s.cfg = true) : exec .reset s = .next (resetState s) :=
  if_pos hc

theorem execReset_eq_next_iff {s t : State} :
    exec .reset s = .next t ↔ configValid s.cfg = true ∧ t = resetState s := by
  by_cases hc : configValid s.cfg = true
  · rw [execReset_of_valid hc]
    simp [hc, eq_comm]
  · rw [exec_invalid (Bool.eq_false_of_not_eq_true hc)]
    simp [hc]

/-- Settles O46: `resetState` writes the values of R400 and nothing else. -/
theorem resetSetsEveryRegister : Obligations.ResetSetsEveryRegister := fun _ hc => execReset_of_valid hc

/-- A reset voice holds no key, so INV1, INV4, INV5 and the pitch ask nothing of it (70_reset_and_hazards.md R400). -/
theorem voiceInv_reset (cfg : Config) : VoiceInv cfg (Voice.reset cfg) where
  phaseWidth := ⟨Nat.two_pow_pos _, Nat.two_pow_pos _⟩
  keyRange := .inl rfl
  inv4 := ⟨fun _ => rfl, fun _ => rfl⟩
  inv5 := nofun
  pitch := nofun
  untorn := fun _ => rfl

/-- The invariants are those of the register file, EnabledTones and `numActive` at their reset values. -/
theorem inv_of_reset_bank {s : State} (hv : s.voices = List.replicate s.cfg.N (Voice.reset s.cfg)) (he : s.et = 0)
    (hn : s.numActive = 0) : s.Inv := by
  have hvoice : ∀ v ∈ s.voices, v = Voice.reset s.cfg := fun v hmem => by
    rw [hv] at hmem
    exact List.eq_of_mem_replicate hmem
  refine (inv_iff s).2 ⟨by rw [hv, List.length_replicate], fun v hmem => ?_, ?_, fun key => ?_, ?_, ?_⟩
  · rw [hvoice v hmem]
    exact voiceInv_reset s.cfg
  · rw [hv]
    exact List.pairwise_replicate.2 (.inr fun _ => rfl)
  · have hsilent : s.sounds key = false := by simp [State.sounds, he]
    rw [hsilent]
    refine ⟨nofun, fun ⟨v, hmem, hk⟩ => ?_⟩
    rw [hvoice v hmem] at hk
    exact absurd hk (noneKey_ne_keyByte key)
  · rw [hn, eq_comm, List.countP_eq_zero]
    intro v hmem
    rw [hvoice v hmem]
    exact Bool.false_ne_true
  · rw [hn]
    exact Nat.zero_le _

/-- Settles O52: the reset bank has the invariants, whatever is scheduled. -/
theorem invariantsHoldAfterReset : Obligations.InvariantsHoldAfterReset :=
  ⟨inv_of_reset_bank rfl rfl rfl, ⟨by decide +kernel, rfl⟩,
    fun _ _ hc => ⟨inv_of_reset_bank rfl rfl rfl, hc, rfl⟩⟩

/-! ## Completion, and what every operation keeps -/

/-- Settles O45, one case per row; the message rows share the completion of their three bytes. -/
theorem everyEnabledOperationCompletes : Obligations.EveryEnabledOperationCompletes := by
  intro i s hr hi henabled
  cases i with
  | rxSeekData d => exact ⟨s, whenReady_whenAt hr (beq_iff_eq.1 henabled) _, hi⟩
  | rxSeekStatus c h => exact ⟨_, whenReady_whenAt hr (beq_iff_eq.1 henabled) _, inv_withDec hi _⟩
  | decode => exact ⟨_, whenReady_whenAt hr (beq_iff_eq.1 henabled) _, inv_withDec hi _⟩
  | rxParam1 k => exact ⟨_, whenReady_whenAt hr (beq_iff_eq.1 henabled) _, inv_withDec hi _⟩
  | rxParam2 v =>
    rw [exec_param2 hr (beq_iff_eq.1 henabled)]
    exact dispatch_next (s := endMessage s) hr.1 (inv_withDec hi _) _ _ _
  | cmdNoteOn k v =>
    obtain ⟨t, ht⟩ := noteOn_completes hr.1 hi k v
    exact ⟨t, (exec_on hr k v).trans ht, noteOn_inv hr.1 hi ht⟩
  | cmdNoteOff k v => exact ⟨_, exec_off hr k v, noteOff_inv hi⟩
  | tick => exact ⟨_, tick_iff.2 ⟨hr, rfl⟩, tick_inv hi⟩
  | reset => exact ⟨_, execReset_of_valid hr.1, inv_of_reset_bank rfl rfl rfl⟩
  | _ => exact message_next hr hi _ _ _

/-- Whatever completes, completes with the invariants: it had passed the gates O45 asks for, or was RESET. -/
theorem exec_keeps_inv {i : Instr} {s t : State} (hi : s.Inv) (h : exec i s = .next t) : t.Inv := by
  by_cases hreset : i = .reset
  · subst hreset
    obtain ⟨-, rfl⟩ := execReset_eq_next_iff.1 h
    exact inv_of_reset_bank rfl rfl rfl
  · obtain ⟨hr, henabled⟩ := ready_enabled_of_exec_next hreset h
    obtain ⟨u, hu, hinv⟩ := everyEnabledOperationCompletes i s hr hi henabled
    cases hu.symm.trans h
    exact hinv

/-- No operation writes the configuration, and after each a RESET has been performed. -/
theorem exec_cfg_booted {i : Instr} {s t : State} (h : exec i s = .next t) : t.cfg = s.cfg ∧ t.booted = true := by
  by_cases hreset : i = .reset
  · subst hreset
    obtain ⟨-, rfl⟩ := execReset_eq_next_iff.1 h
    exact ⟨rfl, rfl⟩
  · obtain ⟨⟨-, hb⟩, -⟩ := ready_enabled_of_exec_next hreset h
    by_cases htick : i = .tick
    · subst htick
      obtain ⟨-, rfl⟩ := tick_iff.1 h
      exact ⟨rfl, hb⟩
    · rw [(foreground_frame htick hreset h).1]
      exact ⟨rfl, hb⟩

/-! ## The step -/

theorem step_of_operation {s t : State} {i : Instr} (hc : configValid s.cfg = true)
    (h : nextOperation s = (some i, t)) : step s = exec i t := by
  rw [step, if_pos hc, h]

theorem step_of_no_operation {s t : State} (hc : configValid s.cfg = true) (h : nextOperation s = (none, t)) :
    step s = .next t := by
  rw [step, if_pos hc, h]

/-- Settles O5: the next operation of a decodable input is that operation. -/
theorem stepRunsTheDecodedOperation : Obligations.StepRunsTheDecodedOperation := by
  intro s e rest i hc hs hd
  exact step_of_operation hc (by rw [nextOperation, hs]; simp only [hd]; rfl)

theorem decodeInput_byte_held {st : DecState} (h : st = .decodeStatus) (ch : Channel) (b : Byte) :
    decodeInput st ch (.byte b) = .error .byteHeld := by
  rw [h]
  rfl

/-- Settles O6: nothing scheduled, or a byte that is held, leaves DECODE as the next operation. -/
theorem byteWaitsUntilDecodeHasRun : Obligations.ByteWaitsUntilDecodeHasRun := by
  intro s hr hst hschedule
  have hnext : nextOperation s = (some .decode, s) := by
    rcases hschedule with hs | ⟨b, rest, hs⟩
    · simp [nextOperation, hs, hr.2, hst]
    · simp only [nextOperation, hs, decodeInput_byte_held hst]
  rw [step_of_operation hr.1 hnext]
  exact whenReady_whenAt hr hst (.next (decodeLatched s))

/-- Settles O7: the three positions are not DECODE_STATUS, so nothing is next and DECODE is off its position. -/
theorem blockWaitsForInput : Obligations.BlockWaitsForInput := by
  intro s hr hs hst
  have hn : s.dec.state ≠ .decodeStatus := by rcases hst with h | h | h <;> rw [h] <;> nofun
  constructor
  · exact step_of_no_operation hr.1 (by simp [nextOperation, hs, hn])
  · exact exec_not_enabled nofun hr (beq_eq_false_iff_ne.2 hn)

/-- Settles O8: no message, so the three bytes replace it in the schedule. -/
theorem nonMessageIsPresentedByteByByte : Obligations.NonMessageIsPresentedByteByByte := by
  intro s b k v rest hc hs hb
  have hd : decodeInput s.dec.state s.cfg.midiChannel (.message b k v) = .error .noMessage := if_neg (by simp [hb])
  exact step_of_no_operation hc (by rw [nextOperation, hs]; simp only [hd]; rfl)

/-- DECODE waits in front of a held byte only (45_midi_decoder.md R222). -/
theorem decodeStatus_of_byteHeld {st : DecState} {ch : Channel} {e : Input}
    (h : decodeInput st ch e = .error .byteHeld) : st = .decodeStatus := by
  cases e with
  | strobe line =>
    cases line with
    | tick => cases h
    | reset => cases h
    | internal => simp only [decodeInput, decodeStrobe] at h; split at h <;> cases h
  | byte b =>
    cases st with
    | seekStatus => simp only [decodeInput, decodeByte] at h; split at h <;> cases h
    | decodeStatus => rfl
    | readParam1 => cases h
    | readParam2 => cases h
  | port w => cases h
  | message b k v => simp only [decodeInput, decodeMessage] at h; split at h <;> cases h

/-- What comes next: nothing, or an operation the position enables; only the schedule may have moved. -/
theorem nextOperation_cases (s : State) : ∃ es, nextOperation s = (none, s.withSchedule es) ∨
    ∃ i, i.enabledAt s.dec.state = true ∧ nextOperation s = (some i, s.withSchedule es) := by
  unfold nextOperation
  split
  · refine ⟨s.schedule, ?_⟩
    split
    case isTrue hd =>
      exact .inr ⟨.decode, (Bool.and_eq_true_iff.1 hd).2, rfl⟩
    case isFalse => exact .inl rfl
  case h_2 e rest _ =>
    split
    case h_1 i hd => exact ⟨rest, .inr ⟨i, (decodeInput_reads hd).enabled, rfl⟩⟩
    case h_2 hd => exact ⟨s.schedule, .inr ⟨.decode, beq_iff_eq.2 (decodeStatus_of_byteHeld hd), rfl⟩⟩
    case h_3 => exact ⟨rest, .inl rfl⟩
    case h_4 => cases e <;> exact ⟨_, .inl rfl⟩

/-- What a step is: waiting, or an enabled operation, with the schedule moved. -/
theorem step_cases {s : State} (hc : configValid s.cfg = true) : ∃ es, step s = .next (s.withSchedule es) ∨
    ∃ i, i.enabledAt s.dec.state = true ∧ step s = exec i (s.withSchedule es) := by
  obtain ⟨es, hnone | ⟨i, henabled, hsome⟩⟩ := nextOperation_cases s
  · exact ⟨es, .inl (step_of_no_operation hc hnone)⟩
  · exact ⟨es, .inr ⟨i, henabled, step_of_operation hc hsome⟩⟩

/-- Settles O50: neither waiting nor an operation writes the configuration. -/
theorem configurationIsNeverWritten : Obligations.ConfigurationIsNeverWritten := by
  intro s t h
  obtain ⟨es, hwait | ⟨i, -, hrun⟩⟩ := step_cases (step_valid h)
  · cases hwait.symm.trans h
    rfl
  · exact (exec_cfg_booted (hrun.symm.trans h)).1

/-- Settles O51: neither waiting nor an operation breaks the invariants. -/
theorem stepKeepsTheInvariants : Obligations.StepKeepsTheInvariants := by
  intro s t hi h
  obtain ⟨es, hwait | ⟨i, -, hrun⟩⟩ := step_cases (step_valid h)
  · cases hwait.symm.trans h
    exact inv_withSchedule hi es
  · exact exec_keeps_inv (inv_withSchedule hi es) (hrun.symm.trans h)

/-- Settles O57: waiting completes, an enabled operation completes by O45, and both leave a ready state. -/
theorem readyStatesStepToReadyStates : Obligations.ReadyStatesStepToReadyStates := by
  intro s hr hi
  obtain ⟨es, hwait | ⟨i, henabled, hrun⟩⟩ := step_cases hr.1
  · exact ⟨_, hwait, hr, inv_withSchedule hi es⟩
  · obtain ⟨t, ht, hinv⟩ := everyEnabledOperationCompletes i (s.withSchedule es) hr (inv_withSchedule hi es) henabled
    obtain ⟨hcfg, hbooted⟩ := exec_cfg_booted ht
    exact ⟨t, hrun.trans ht, ⟨hcfg ▸ hr.1, hbooted⟩, hinv⟩

/-- What every run from RESET keeps: O52 at the start, O57 at each step. -/
theorem Reachable.ready_inv {s : State} (h : Reachable s) : s.Ready ∧ s.Inv := by
  induction h with
  | start cfg inputs valid => exact (invariantsHoldAfterReset.2.2 cfg inputs valid).symm
  | next s t _ stepped ih =>
    obtain ⟨hr, hi⟩ := ih
    obtain ⟨u, hu, hready, hinv⟩ := readyStatesStepToReadyStates s hr hi
    cases hu.symm.trans stepped
    exact ⟨hready, hinv⟩

/-- Settles O53: reached states are ready and have the invariants, and from those the step goes on. -/
theorem noReachableStateStops : Obligations.NoReachableStateStops := by
  intro s h
  obtain ⟨hr, hi⟩ := h.ready_inv
  obtain ⟨t, ht, -⟩ := readyStatesStepToReadyStates s hr hi
  exact ⟨t, ht⟩

end Sys2Proof.Machine
end

section
/-! PROOFS. The decoder's rows and whole messages (45_midi_decoder.md; 30_encoding.md section 5): O11, O12, O14 and
O40 to O44. -/

namespace Sys2Proof.Machine

/-! ## The kind of a status byte (30_encoding.md R76) -/

theorem kindOf_of_other_channel {ch : Channel} {b : Byte} (h : statusChannel b ≠ ch) : kindOf ch b = .ignore :=
  if_pos h

theorem kindOf_of_channel {ch : Channel} {b : Byte} (h : statusChannel b = ch) :
    kindOf ch b = if statusCmd b = 0#3 then .off else if statusCmd b = 1#3 then .on else .ignore :=
  if_neg (not_not_intro h)

theorem kindOf_of_other_command (ch : Channel) {b : Byte} (h : 2#3 ≤ statusCmd b) : kindOf ch b = .ignore := by
  have hne : ∀ c : Cmd, 2#3 ≤ c → c ≠ 0#3 ∧ c ≠ 1#3 := by decide
  obtain ⟨h0, h1⟩ := hne _ h
  by_cases hch : statusChannel b = ch
  · rw [kindOf_of_channel hch, if_neg h0, if_neg h1]
  · exact kindOf_of_other_channel hch

/-- Settles O11: DECODE writes `kindOf` of the latched byte. -/
theorem decodeComputesTheKind : Obligations.DecodeComputesTheKind := by
  intro s hr hs
  refine ⟨kindOf s.cfg.midiChannel s.dec.status, whenReady_whenAt hr hs (.next (decodeLatched s)),
    kindOf_of_other_channel, fun hch hoff => ?_, fun hch hon => ?_, kindOf_of_other_command _⟩
  · rw [kindOf_of_channel hch, if_pos hoff]
  · rw [kindOf_of_channel hch, hon]
    rfl

/-- Settles O12: R223, whose one write is `latchKey`. -/
theorem readParam1TakesAnyByte : Obligations.ReadParam1TakesAnyByte := by
  intro s k hr hs
  exact whenReady_whenAt hr hs (.next (latchKey k s))

/-- Settles O14: the row is a dispatch on the state the message ends in, which completes and writes the bank alone. -/
theorem readParam2Completes : Obligations.ReadParam2Completes := by
  intro s v hr hi hs
  obtain ⟨t, ht, hinv⟩ := dispatch_next (s := endMessage s) hr.1 (inv_withDec hi _) s.dec.kind s.dec.key v
  obtain ⟨hframe, hparts⟩ := dispatch_frame ht
  exact ⟨t, (exec_param2 hr hs).trans ht, hframe, hparts, hinv⟩

/-! ## A message at SEEK_STATUS -/

theorem ready_withDec {s : State} (h : s.Ready) (d : Decoder) : (s.withDec d).Ready := h

/-- The decoder after a message of the status byte `b` and the first parameter `k`. -/
def latchedBy (ch : Channel) (b k : Byte) : Decoder := ⟨.seekStatus, b, kindOf ch b, k⟩

/-- A message row at SEEK_STATUS is the dispatch of its bytes, with the latches written. -/
theorem exec_message_at_seek {i : Instr} {c : Cmd} {h : Channel} {k v : Byte} {s : State}
    (hi : encode i = .message (statusByte c h) k v) (hr : s.Ready) (hs : s.dec.state = .seekStatus) :
    exec i s = dispatch (kindOf s.cfg.midiChannel (statusByte c h)) k v
      (s.withDec (latchedBy s.cfg.midiChannel (statusByte c h) k)) := by
  rw [exec_msg hi, message_at_seek hr hs (isStatusByte_statusByte c h)]
  rfl

theorem kindOf_note_off (ch : Channel) : kindOf ch (statusByte 0#3 ch) = .off := by
  rw [kindOf_of_channel (statusChannel_statusByte _ _), statusCmd_statusByte]
  rfl

theorem kindOf_note_on (ch : Channel) : kindOf ch (statusByte 1#3 ch) = .on := by
  rw [kindOf_of_channel (statusChannel_statusByte _ _), statusCmd_statusByte]
  rfl

/-- Settles O40: the kind is `on` and the velocity is not 0, so the dispatch is CMD_NOTE_ON of the operands. -/
theorem noteOnMessageIsNoteOn : Obligations.NoteOnMessageIsNoteOn := by
  intro s k v hr hi hs hv d
  have hd : latchedBy s.cfg.midiChannel (statusByte 1#3 s.cfg.midiChannel) (dataByte k) = d := by
    rw [latchedBy, kindOf_note_on]
  have hne : dataByte v ≠ 0 := fun h => hv (dataByte_eq_zero.1 h)
  have hrun : exec (.msgNoteOn s.cfg.midiChannel k v) s = noteOn k v (s.withDec d) := by
    rw [exec_message_at_seek rfl hr hs, kindOf_note_on, hd,
      dispatch_on (isStatusByte_dataByte k) (isStatusByte_dataByte v), if_neg hne, low7_dataByte, low7_dataByte]
  have hcmd : exec (.cmdNoteOn k v) (s.withDec d) = noteOn k v (s.withDec d) := exec_on (ready_withDec hr d) k v
  obtain ⟨⟨t, ht, hsounds, -⟩, -⟩ := allocatorNeverFails (s.withDec d) k v (ready_withDec hr d) (inv_withDec hi d)
  have hnote := hcmd.symm.trans ht
  have hdec : t.dec = d := by rw [(noteOn_frame hnote).1]; rfl
  exact ⟨t, hrun.trans hnote, ht, hdec, hsounds⟩

/-- A message that ends as `noteOff` of its key is CMD_NOTE_OFF of it, which completes and silences the key. -/
theorem noteOff_of_message {s : State} (hr : s.Ready) (hi : s.Inv) {i : Instr} {k v : Data7} {d : Decoder}
    (hrun : exec i s = noteOff k v (s.withDec d)) (vel : Data7) :
    ∃ t : State, exec i s = .next t ∧ exec (.cmdNoteOff k vel) (s.withDec d) = .next t ∧ t.dec = d ∧
      t.sounds k = false := by
  have hdec : (noteOffState k (s.withDec d)).dec = d := by rw [(noteOff_frame k _).1]; rfl
  exact ⟨_, hrun, exec_off (ready_withDec hr d) k vel, hdec, noteOffState_silences (inv_withDec hi d) k⟩

/-- Settles O41: the kind is `off`, or `on` with velocity 0, so the dispatch is `noteOff` of the key. -/
theorem noteOffMessagesAreNoteOff : Obligations.NoteOffMessagesAreNoteOff := by
  intro s k v hr hi hs
  constructor
  · intro d
    have hd : latchedBy s.cfg.midiChannel (statusByte 0#3 s.cfg.midiChannel) (dataByte k) = d := by
      rw [latchedBy, kindOf_note_off]
    refine noteOff_of_message hr hi (v := v) ?_ v
    rw [exec_message_at_seek rfl hr hs, kindOf_note_off, hd,
      dispatch_off (isStatusByte_dataByte k) (isStatusByte_dataByte v), low7_dataByte, low7_dataByte]
  · intro d
    have hd : latchedBy s.cfg.midiChannel (statusByte 1#3 s.cfg.midiChannel) (dataByte k) = d := by
      rw [latchedBy, kindOf_note_on]
    refine noteOff_of_message hr hi (v := 0) ?_ 0
    rw [exec_message_at_seek rfl hr hs, kindOf_note_on, hd,
      dispatch_on (isStatusByte_dataByte k) (isStatusByte_dataByte 0#7),
      if_pos (show dataByte 0#7 = 0 from dataByte_zero), low7_dataByte]

/-- A message with a marked parameter latches and dispatches nothing. -/
theorem exec_marked_message {i : Instr} {c : Cmd} {h : Channel} {k v : Byte} {s : State}
    (hi : encode i = .message (statusByte c h) k v) (hr : s.Ready) (hs : s.dec.state = .seekStatus)
    (hmarked : k.msb = true ∨ v.msb = true) :
    exec i s = .next (s.withDec (latchedBy s.cfg.midiChannel (statusByte c h) k)) := by
  rw [exec_message_at_seek hi hr hs, dispatch_of_msb hmarked]

/-- A message of kind `ignore` latches and dispatches nothing. -/
theorem exec_ignored_message {i : Instr} {c : Cmd} {h : Channel} {k v : Byte} {s : State}
    (hi : encode i = .message (statusByte c h) k v) (hr : s.Ready) (hs : s.dec.state = .seekStatus)
    (hkind : kindOf s.cfg.midiChannel (statusByte c h) = .ignore) :
    exec i s = .next (s.withDec (latchedBy s.cfg.midiChannel (statusByte c h) k)) := by
  rw [exec_message_at_seek hi hr hs, hkind, dispatch_ignore]

theorem kindOf_statusByte_other (ch h : Channel) {c : Cmd} (hc : 2#3 ≤ c) : kindOf ch (statusByte c h) = .ignore :=
  kindOf_of_other_command ch (by rwa [statusCmd_statusByte])

/-- Settles O42: another channel or another command is ignored, and a marked parameter drops the command. -/
theorem silentMessagesChangeLatchesOnly : Obligations.SilentMessagesChangeLatchesOnly := by
  intro s c h k v k7 v7 hr hs after
  refine ⟨fun hch => ?_, exec_marked_message rfl hr hs (.inl (isStatusByte_markedByte k7)),
    exec_marked_message rfl hr hs (.inr (isStatusByte_markedByte v7)), ?_, ?_, ?_, ?_, ?_, ?_⟩
  · exact exec_ignored_message rfl hr hs (kindOf_of_other_channel (by rwa [statusChannel_statusByte]))
  all_goals exact exec_ignored_message rfl hr hs (kindOf_statusByte_other _ h (by decide))

/-! ## A message as its three bytes (30_encoding.md R81) -/

theorem run_succ_of_next {s t : State} (h : step s = .next t) (n : Nat) :
    Host.Core.run Sys2Proof.core (n + 1) s = Host.Core.run Sys2Proof.core n t := by
  rw [core_run_succ, h]
  rfl

theorem run_succ_of_refused {s : State} {e : Refusal} (h : step s = .refused e) (n : Nat) :
    Host.Core.run Sys2Proof.core (n + 1) s = (.refused e : Result) := by
  rw [core_run_succ, h]
  rfl

theorem run_one (s : State) : Host.Core.run Sys2Proof.core 1 s = step s :=
  (core_run_succ 0 s).trans (andThen_pure (step s))

/-- At SEEK_STATUS a status byte is the row RX_BYTE.SEEK_STATUS of its fields. -/
theorem step_status_byte {s : State} {b : Byte} {rest : List Input} (hc : configValid s.cfg = true)
    (hs : s.dec.state = .seekStatus) (hb : isStatusByte b = true) (hbyte : s.schedule = .byte b :: rest) :
    step s = exec (.rxSeekStatus (statusCmd b) (statusChannel b)) (s.withSchedule rest) := by
  have hdecode : decodeInput s.dec.state s.cfg.midiChannel (.byte b) =
      .ok (.rxSeekStatus (statusCmd b) (statusChannel b)) := by
    rw [hs]
    exact if_pos hb
  exact stepRunsTheDecodedOperation s _ rest _ hc hbyte hdecode

/-- Four steps on the bytes of a message: the status byte is latched, DECODE runs before the waiting byte, the first
parameter is latched, the second dispatches. -/
theorem run_message_bytes {s : State} {b k v : Byte} {rest : List Input} (hr : s.Ready)
    (hs : s.dec.state = .seekStatus) (hb : isStatusByte b = true)
    (hbytes : s.schedule = .byte b :: .byte k :: .byte v :: rest) :
    Host.Core.run Sys2Proof.core 4 s = receiveMessage b k v (s.withSchedule rest) := by
  let s1 := latchStatus b (s.withSchedule (.byte k :: .byte v :: rest))
  let s2 := decodeLatched s1
  let s3 := latchKey k (s2.withSchedule (.byte v :: rest))
  have h1 : step s = .next s1 := by
    rw [step_status_byte hr.1 hs hb hbytes]
    refine (seekStatusTakesStatusByte (s.withSchedule (.byte k :: .byte v :: rest)) _ _ hr hs).trans ?_
    rw [statusByte_fields b hb]
    rfl
  have h2 : step s1 = .next s2 := byteWaitsUntilDecodeHasRun s1 hr rfl (.inr ⟨k, _, rfl⟩)
  have h3 : step s2 = .next s3 :=
    (stepRunsTheDecodedOperation s2 _ _ (.rxParam1 k) hr.1 rfl rfl).trans (readParam1TakesAnyByte _ k hr rfl)
  have h4 : step s3 = receiveMessage b k v (s.withSchedule rest) :=
    calc step s3 = exec (.rxParam2 v) (s3.withSchedule rest) :=
          stepRunsTheDecodedOperation s3 _ _ (.rxParam2 v) hr.1 rfl rfl
      _ = dispatch (kindOf s.cfg.midiChannel b) k v (endMessage (s3.withSchedule rest)) := exec_param2 hr rfl
      _ = receiveMessage b k v (s.withSchedule rest) := (message_at_seek (s := s.withSchedule rest) hr hs hb).symm
  exact (run_succ_of_next h1 3).trans ((run_succ_of_next h2 2).trans ((run_succ_of_next h3 1).trans
    ((run_one s3).trans h4)))

/-- A scheduled message is its three bytes received in a row, stops included. -/
theorem step_message {s : State} {b k v : Byte} {rest : List Input} (hc : configValid s.cfg = true)
    (hb : isStatusByte b = true) (hmessage : s.schedule = .message b k v :: rest) :
    step s = receiveMessage b k v (s.withSchedule rest) := by
  have hdecode := decodeMessage_of_status hb s.cfg.midiChannel k v
  rw [stepRunsTheDecodedOperation s _ rest _ hc hmessage hdecode,
    exec_msg (decodeMessage_reads hdecode s.dec.state).encodes]
  rfl

/-- Settles O43: both sides are the same three bytes received in a row, or are refused by the same gate. -/
theorem messageIsItsThreeBytes : Obligations.MessageIsItsThreeBytes := by
  intro s b k v rest hb hs
  let m := s.withSchedule (.message b k v :: rest)
  let q := s.withSchedule (.byte b :: .byte k :: .byte v :: rest)
  show step m = Host.Core.run Sys2Proof.core 4 q
  by_cases hc : configValid s.cfg = true
  · have hm : step m = receiveMessage b k v (s.withSchedule rest) := step_message (s := m) hc hb rfl
    by_cases hbooted : s.booted = true
    · exact hm.trans (run_message_bytes (s := q) ⟨hc, hbooted⟩ hs hb rfl).symm
    · have hbooted := Bool.eq_false_of_not_eq_true hbooted
      have hq : step q = .refused .beforeReset :=
        (step_status_byte (s := q) hc hs hb rfl).trans (nothingRunsBeforeReset _ _ hc hbooted nofun)
      exact (hm.trans (whenReady_not_booted hc hbooted _)).trans (run_succ_of_refused hq 3).symm
  · have hc := Bool.eq_false_of_not_eq_true hc
    exact (step_invalid (s := m) hc).trans (run_succ_of_refused (step_invalid (s := q) hc) 3).symm

/-- Settles O44: the four steps are the message's bytes received in a row, a dispatch that leaves decoder and
schedule. -/
theorem everyMessageRealigns : Obligations.EveryMessageRealigns := by
  intro s b k v rest hr hi hb hs hbytes
  have hr' : (s.withSchedule rest).Ready := hr
  obtain ⟨t, ht, hinv⟩ := message_next hr' (inv_withSchedule hi rest) b k v
  have hdispatch := (message_at_seek hr' hs hb).symm.trans ht
  have hframe := (dispatch_frame hdispatch).1
  refine ⟨t, (run_message_bytes hr hs hb hbytes).trans ht, ?_, ?_, hinv⟩ <;> rw [hframe] <;> rfl

end Sys2Proof.Machine
end

section
/-! PROOFS. The three branches of CMD_NOTE_ON and the steal scan (44_voice_allocator.md): O16 to O19, O22. -/

namespace Sys2Proof.Machine

/-! ## What `assign` and `age_bump` leave in the bank -/

/-- The torn bit "never written" under ATOMIC_ASSIGN (R38) is still false, so `assign` leaves it the negation. -/
theorem assignVoice_eq {cfg : Config} {v : Voice} (h : cfg.atomicAssign = true → v.torn = false) (key vel : Data7) :
    assignVoice cfg key vel v = { v with
      increment := inc cfg key
      currentKey := keyByte key
      targetVolume := velocityVolume cfg vel
      age := 0
      torn := !cfg.atomicAssign
      tornT := if cfg.atomicAssign then v.tornT else v.targetVolume } := by
  have htorn : (if cfg.atomicAssign then v.torn else true) = !cfg.atomicAssign := by
    cases ha : cfg.atomicAssign
    · rfl
    · exact h ha
  rw [assignVoice, htorn]

theorem keyByte_eq_iff_toNat {b : Byte} {key : Data7} : b = keyByte key ↔ b.toNat = key.toNat := by
  rw [← BitVec.toNat_inj, keyByte_toNat]

/-- EnabledTones after `assign` to a free voice gains the key alone. -/
theorem assignTones_of_free {v : Voice} (hv : v.currentKey = noneKey) (et : BitVec 128) (key k : Data7) :
    (assignTones et key v).getLsbD k.toNat = (et.getLsbD k.toNat || decide (k = key)) := by
  rw [assignTones_getLsbD, hv]
  simp [Bool.or_comm]

/-- EnabledTones after `assign` to an assigned voice loses the voice's key and gains the new one. -/
theorem assignTones_of_assigned {v : Voice} (hv : v.currentKey ≠ noneKey) (et : BitVec 128) (key k : Data7) :
    (assignTones et key v).getLsbD k.toNat =
      ((et.getLsbD k.toNat && v.currentKey != keyByte k) || decide (k = key)) := by
  have hkey : (v.currentKey != keyByte k) = decide (v.currentKey.toNat ≠ k.toNat) := by
    rw [Bool.eq_iff_iff, bne_iff_ne, decide_eq_true_iff, ne_eq, keyByte_eq_iff_toNat]
  rw [assignTones_getLsbD, hkey, beq_eq_false_iff_ne.2 hv, Bool.false_or, Bool.or_comm]

/-- A retrigger leaves EnabledTones: it clears and sets the bit of the one key. -/
theorem assignTones_of_same_key {s : State} {key : Data7} {v : Voice} (hs : s.sounds key = true)
    (hv : v.currentKey = keyByte key) : assignTones s.et key v = s.et := by
  refine tones_ext fun k => ?_
  rw [assignTones_of_assigned (hv ▸ keyByte_ne_noneKey key)]
  by_cases hk : k = key
  · subst hk
    have hbit : s.et.getLsbD k.toNat = true := hs
    simp [hbit]
  · have hne : v.currentKey ≠ keyByte k := hv ▸ fun h => hk (keyByte_inj.1 h).symm
    simp [hk, hne]

/-- One voice of `age_bump` that is not the excepted one (R187). -/
theorem bumpVoice_of_ne {cfg : Config} {i j : Nat} (h : j ≠ i) (v : Voice) : bumpVoice cfg i j v =
    if v.age = freeAge cfg then v else { v with age := min (v.age + 1) (ageMax cfg) } := by
  simp only [bumpVoice, h, false_or]

/-- The bank after `assign` to voice `i` and `age_bump(except = i)`. -/
def assignedBank (cfg : Config) (i : Nat) (key vel : Data7) (v : Voice) (vs : List Voice) : List Voice :=
  ageBump cfg i (vs.set i (assignVoice cfg key vel v))

theorem assignedBank_self (cfg : Config) {i : Nat} {v : Voice} {vs : List Voice} (hv : vs[i]? = some v)
    (key vel : Data7) : (assignedBank cfg i key vel v vs)[i]? = some (assignVoice cfg key vel v) := by
  rw [assignedBank, ageBump_getElem?_self, List.getElem?_set_self (List.getElem?_eq_some_iff.1 hv).1]

theorem assignedBank_other (cfg : Config) {i j : Nat} (h : j ≠ i) (key vel : Data7) (v : Voice) (vs : List Voice) :
    (assignedBank cfg i key vel v vs)[j]? = vs[j]?.map (bumpVoice cfg i j) := by
  rw [assignedBank, ageBump_getElem?, List.getElem?_set_ne h.symm]

theorem assignedBank_other_some (cfg : Config) {i j : Nat} (h : j ≠ i) (key vel : Data7) (v : Voice) {vs : List Voice}
    {w : Voice} (hw : vs[j]? = some w) : (assignedBank cfg i key vel v vs)[j]? = some (bumpVoice cfg i j w) := by
  rw [assignedBank_other cfg h, hw, Option.map_some]

@[simp] theorem assignedBank_length (cfg : Config) (i : Nat) (key vel : Data7) (v : Voice) (vs : List Voice) :
    (assignedBank cfg i key vel v vs).length = vs.length := by
  simp [assignedBank]

/-! ## The branches -/

/-- A count of voices fits the width of `numActive` (00_scope.md R6). -/
theorem withNumActive_of_le {s : State} {n : Nat} (h : n ≤ s.cfg.N) :
    s.withNumActive n = { s with numActive := n } := by
  rw [State.withNumActive, Nat.mod_eq_of_lt (lt_of_le_of_lt h (lt_two_pow_activeWidth s.cfg))]

/-- Settles O16: the scan finds a holder, which `assign` leaves on its key and increment, and EnabledTones stays. -/
theorem retriggerKeepsTheVoice : Obligations.RetriggerKeepsTheVoice := by
  intro s key vel hr hi hs
  obtain ⟨t, ht⟩ := noteOn_completes hr.1 hi key vel
  obtain ⟨i, v, hv, ⟨-, hfound, rfl⟩ | ⟨hsilent, -⟩ | ⟨hsilent, -⟩⟩ := noteOn_cases ht
  · obtain ⟨w, hw, hk, -⟩ := findKey_eq_some_iff.1 hfound
    obtain rfl : v = w := Option.some.inj (hv.symm.trans hw)
    have hmem := List.mem_of_getElem? hv
    have hassigned : v.assigned = true := by simp [assigned_iff, hk]
    have hpitch : v.increment = inc s.cfg key := by rw [hi.pitch v hmem hassigned, hk, low7_keyByte]
    refine ⟨i, v, hv, hk, hpitch, ?_⟩
    rw [exec_on hr, ht, assignTones_of_same_key hs hk, assignVoice_eq fun ha => hi.untorn ha v hmem, ← hpitch, ← hk]
    rfl
  · exact absurd hs (by simp [hsilent])
  · exact absurd hs (by simp [hsilent])

/-- Settles O17: the free branch, whose voice is the lowest free one; with room, the increment of `numActive` does not
wrap. -/
theorem newKeyTakesLowestFreeVoice : Obligations.NewKeyTakesLowestFreeVoice := by
  intro s key vel hr hi hs hroom
  obtain ⟨t, ht⟩ := noteOn_completes hr.1 hi key vel
  obtain ⟨i, v, hv, ⟨hsounds, -⟩ | ⟨-, -, hfound, rfl⟩ | ⟨-, hfull, -⟩⟩ := noteOn_cases ht
  · exact absurd hsounds (by simp [hs])
  · obtain ⟨w, hw, hfree, hlowest⟩ := findFree_eq_some_iff.1 hfound
    obtain rfl : v = w := Option.some.inj (hv.symm.trans hw)
    have hmem := List.mem_of_getElem? hv
    refine ⟨i, v, _, hv, hfree, hlowest, (exec_on hr key vel).trans ht, ?_,
      fun k => assignTones_of_free ((hi.inv4 v hmem).1 hfree) s.et key k, assignedBank_length .., ?_,
      fun j w hj hw => ?_⟩
    · rw [withNumActive_of_le]
      · rfl
      · exact hroom
    · rw [← assignVoice_eq fun ha => hi.untorn ha v hmem]
      exact assignedBank_self s.cfg hv key vel
    · rw [← bumpVoice_of_ne hj]
      exact assignedBank_other_some s.cfg hj key vel v hw
  · omega

/-- On a full bank every voice is assigned (INV3). -/
theorem assigned_of_full {s : State} (hi : s.Inv) (hfull : s.numActive = s.cfg.N) {v : Voice} (hv : v ∈ s.voices) :
    v.assigned = true :=
  List.countP_eq_length.1 (by rw [← hi.inv3.1, hfull, hi.voiceCount]) v hv

/-- Settles O18: the steal branch, whose voice is that of the scan; the full bank has no free voice to be left out of
the aging. -/
theorem newKeyStealsOnFullBank : Obligations.NewKeyStealsOnFullBank := by
  intro s key vel hr hi hs hfull
  obtain ⟨t, ht⟩ := noteOn_completes hr.1 hi key vel
  obtain ⟨i, v, hv, ⟨hsounds, -⟩ | ⟨-, hroom, -⟩ | ⟨-, -, rfl, rfl⟩⟩ := noteOn_cases ht
  · exact absurd hsounds (by simp [hs])
  · omega
  · have hmem := List.mem_of_getElem? hv
    have hkey := assigned_iff.1 (assigned_of_full hi hfull hmem)
    refine ⟨v, _, hv, hkey, (exec_on hr key vel).trans ht, rfl, assignTones_of_assigned hkey s.et key,
      assignedBank_length .., ?_, fun j w hj hw => ?_⟩
    · rw [← assignVoice_eq fun ha => hi.untorn ha v hmem]
      exact assignedBank_self s.cfg hv key vel
    · have hwmem := List.mem_of_getElem? hw
      have hage : w.age ≠ freeAge s.cfg := fun h =>
        assigned_iff.1 (assigned_of_full hi hfull hwmem) ((hi.inv4 w hwmem).1 h)
      have hbump := bumpVoice_of_ne (cfg := s.cfg) hj w
      rw [if_neg hage] at hbump
      rw [← hbump]
      exact assignedBank_other_some s.cfg hj key vel v hw

/-! ## The steal scan -/

/-- Voice `i` is the lowest one of maximal age. -/
def OldestOf (vs : List Voice) (i : Nat) : Prop :=
  ∃ v, vs[i]? = some v ∧ ∀ (j : Nat) (w : Voice), vs[j]? = some w → w.age ≤ v.age ∧ (j < i → w.age < v.age)

/-- The scan's invariant: its candidate is the oldest of the voices it has passed. -/
theorem stealFrom_oldest (rest : List Voice) (vs : List Voice) (j best : Nat) (b : Voice) (hdrop : vs.drop j = rest)
    (hb : vs[best]? = some b) (hlt : best < j)
    (hold : ∀ (k : Nat) (w : Voice), k < j → vs[k]? = some w → w.age ≤ b.age ∧ (k < best → w.age < b.age)) :
    OldestOf vs (stealFrom rest j best b.age) := by
  induction rest generalizing j best b with
  | nil =>
    have hlen : vs.length ≤ j := List.drop_eq_nil_iff.1 hdrop
    exact ⟨b, hb, fun k w hw => hold k w (lt_of_lt_of_le (List.getElem?_eq_some_iff.1 hw).1 hlen) hw⟩
  | cons v rest ih =>
    have hv : vs[j]? = some v := by rw [← List.head?_drop, hdrop, List.head?_cons]
    have hdrop' : vs.drop (j + 1) = rest := by rw [← List.tail_drop, hdrop, List.tail_cons]
    unfold stealFrom
    split
    case isTrue hgreater =>
      refine ih (j + 1) j v hdrop' hv (by omega) fun k w hk hw => ?_
      rcases Nat.lt_succ_iff_lt_or_eq.1 hk with hkj | rfl
      · have := (hold k w hkj hw).1
        omega
      · cases hv.symm.trans hw
        omega
    case isFalse hnot =>
      refine ih (j + 1) best b hdrop' hb (by omega) fun k w hk hw => ?_
      rcases Nat.lt_succ_iff_lt_or_eq.1 hk with hkj | rfl
      · exact hold k w hkj hw
      · cases hv.symm.trans hw
        omega

/-- Settles O19: voice 0 is the oldest of the voices passed at the start, itself, and the scan keeps that to the end. -/
theorem stealScanReturnsTheOldest : Obligations.StealScanReturnsTheOldest := by
  intro vs hne
  cases vs with
  | nil => exact absurd rfl hne
  | cons v rest =>
    have hfirst : ∀ (k : Nat) (w : Voice), k < 1 → (v :: rest)[k]? = some w →
        w.age ≤ v.age ∧ (k < 0 → w.age < v.age) := fun k w hk hw => by
      obtain rfl : k = 0 := by omega
      cases hw
      exact ⟨le_rfl, nofun⟩
    exact stealFrom_oldest rest (v :: rest) 1 0 v rfl rfl Nat.zero_lt_one hfirst

/-! ## Ages -/

/-- No two assigned voices have the same age. -/
def DistinctAges (vs : List Voice) : Prop :=
  ∀ (i j : Nat) (v w : Voice), i ≠ j → vs[i]? = some v → vs[j]? = some w → v.assigned = true → w.assigned = true →
    v.age ≠ w.age

/-- As the recency law's statement says it, on the pairs of the list. -/
theorem distinctAges_iff {vs : List Voice} : DistinctAges vs ↔
    vs.Pairwise fun a b => a.assigned = true → b.assigned = true → a.age ≠ b.age := by
  rw [List.pairwise_iff_getElem]
  constructor
  · intro h i j hi hj hlt
    exact h i j _ _ hlt.ne (List.getElem?_eq_getElem hi) (List.getElem?_eq_getElem hj)
  · intro h i j v w hij hv hw hva hwa
    obtain ⟨hi, rfl⟩ := List.getElem?_eq_some_iff.1 hv
    obtain ⟨hj, rfl⟩ := List.getElem?_eq_some_iff.1 hw
    rcases Nat.lt_or_gt_of_ne hij with hlt | hgt
    · exact h i j hi hj hlt hva hwa
    · exact (h j i hj hi hgt hwa hva).symm

/-- `age_bump` keeps the key of a voice. -/
@[simp] theorem bumpVoice_currentKey (cfg : Config) (i j : Nat) (v : Voice) :
    (bumpVoice cfg i j v).currentKey = v.currentKey := by
  rw [bumpVoice_eq]

/-- Below AGE_MAX the bump adds 1: no saturation (R187). -/
theorem bumpVoice_age {cfg : Config} (hc : configValid cfg = true) {i j : Nat} (h : j ≠ i) {v : Voice}
    (hage : v.age < ageMax cfg) : (bumpVoice cfg i j v).age = v.age + 1 := by
  have hfree := ageMax_lt_freeAge hc
  rw [bumpVoice_of_ne h, if_neg (by omega)]
  exact Nat.min_eq_left hage

/-- A note-on of a new key, free slot or steal, is `assign` with `age_bump`. -/
theorem noteOn_of_silent {key vel : Data7} {s t : State} (hs : s.sounds key = false)
    (h : noteOn key vel s = .next t) :
    ∃ i v, s.voices[i]? = some v ∧ t.voices = assignedBank s.cfg i key vel v s.voices := by
  obtain ⟨i, v, hv, ⟨hsounds, -⟩ | ⟨-, -, -, rfl⟩ | ⟨-, -, -, rfl⟩⟩ := noteOn_cases h
  · exact absurd hsounds (by simp [hs])
  · exact ⟨i, v, hv, rfl⟩
  · exact ⟨i, v, hv, rfl⟩

/-- The voices other than the assigned one come from voices of the old bank, each one older. -/
theorem assignedBank_age {cfg : Config} (hc : configValid cfg = true) {vs : List Voice}
    (hbelow : ∀ v ∈ vs, v.assigned = true → v.age < ageMax cfg) {i j : Nat} (h : j ≠ i) {key vel : Data7} {v w : Voice}
    (hw : (assignedBank cfg i key vel v vs)[j]? = some w) (ha : w.assigned = true) :
    ∃ u, vs[j]? = some u ∧ u.assigned = true ∧ w.age = u.age + 1 := by
  rw [assignedBank_other cfg h] at hw
  obtain ⟨u, hu, rfl⟩ := Option.map_eq_some_iff.1 hw
  have hua : u.assigned = true := by simpa [assigned_iff] using ha
  exact ⟨u, hu, hua, bumpVoice_age hc h (hbelow u (List.mem_of_getElem? hu) hua)⟩

/-- The assigned voice is at 0, below every other assigned one, and those keep their differences. -/
theorem assignedBank_distinct {cfg : Config} (hc : configValid cfg = true) {vs : List Voice}
    (hdistinct : DistinctAges vs) (hbelow : ∀ v ∈ vs, v.assigned = true → v.age < ageMax cfg) {i : Nat} {v : Voice}
    (hv : vs[i]? = some v) (key vel : Data7) : DistinctAges (assignedBank cfg i key vel v vs) := by
  have hself : ∀ w, (assignedBank cfg i key vel v vs)[i]? = some w → w.age = 0 := fun w hw => by
    cases (assignedBank_self cfg hv key vel).symm.trans hw
    rfl
  intro a b x y hab hx hy hxa hya
  by_cases hai : a = i
  · subst hai
    obtain ⟨u, -, -, hage⟩ := assignedBank_age hc hbelow hab.symm hy hya
    rw [hself x hx, hage]
    omega
  · obtain ⟨u, hu, hua, hage⟩ := assignedBank_age hc hbelow hai hx hxa
    by_cases hbi : b = i
    · subst hbi
      rw [hself y hy, hage]
      omega
    · obtain ⟨u', hu', hua', hage'⟩ := assignedBank_age hc hbelow hbi hy hya
      have := hdistinct a b u u' hab hu hu' hua hua'
      omega

/-- A release takes a voice out of the assigned ones and leaves the other ages (R196). -/
theorem noteOffState_distinct {s : State} (hdistinct : DistinctAges s.voices) (key : Data7) :
    DistinctAges (noteOffState key s).voices := by
  rcases noteOffState_cases key s with ⟨-, hsame⟩ | ⟨i, v, -, hv, -, hrel⟩
  · rwa [hsame]
  · have hvoices : (noteOffState key s).voices = s.voices.set i (releaseVoice s.cfg v) := by rw [hrel]; rfl
    have hold : ∀ (j : Nat) (w : Voice), (s.voices.set i (releaseVoice s.cfg v))[j]? = some w → w.assigned = true →
        s.voices[j]? = some w := fun j w hw ha => by
      by_cases hij : i = j
      · subst hij
        rw [List.getElem?_set_self (List.getElem?_eq_some_iff.1 hv).1] at hw
        cases hw
        cases ha
      · rwa [List.getElem?_set_ne hij] at hw
    rw [hvoices]
    intro a b x y hab hx hy hxa hya
    exact hdistinct a b x y hab (hold a x hx hxa) (hold b y hy hya) hxa hya

/-- Settles O22: the new voice is at 0, the others at one more than before, a released one is out of the count. -/
theorem agesCountCommandsSinceAssignment : Obligations.AgesCountCommandsSinceAssignment := by
  intro s key vel hr hi hpairwise hbelow
  have hdistinct := distinctAges_iff.2 hpairwise
  refine ⟨fun hs => ?_, _, exec_off hr key vel, distinctAges_iff.1 (noteOffState_distinct hdistinct key)⟩
  obtain ⟨t, ht⟩ := noteOn_completes hr.1 hi key vel
  obtain ⟨i, v, hv, hbank⟩ := noteOn_of_silent hs ht
  refine ⟨t, i, assignVoice s.cfg key vel v, (exec_on hr key vel).trans ht, ?_, rfl, rfl, ?_, fun j u hj hu ha => ?_⟩
  · rw [hbank]
    exact assignedBank_self s.cfg hv key vel
  · rw [hbank]
    exact distinctAges_iff.1 (assignedBank_distinct hr.1 hdistinct hbelow hv key vel)
  · refine ⟨bumpVoice s.cfg i j u, ?_, bumpVoice_currentKey .., ?_⟩
    · rw [hbank]
      exact assignedBank_other_some s.cfg hj key vel v hu
    · exact bumpVoice_age hr.1 hj (hbelow u (List.mem_of_getElem? hu) ha)

end Sys2Proof.Machine
end

section
/-! PROOFS. TICK on the bank (41_phase_accumulator.md, 42_envelope_smoother.md, 43_pwm_duty_gen.md;
60_exceptions.md R306): who writes what, the smoother's convergence, the duty, the outputs, and
O23, O25, O29 to O35, O39. -/

namespace Sys2Proof.Machine

/-! ## Ownership (10_state.md R29) -/

theorem tickState_allocatorPart (s : State) :
    (tickState s).voices.map Voice.allocatorPart = s.voices.map Voice.allocatorPart :=
  tick_map _ _ _ _ _ fun _ _ => rfl

/-- What a tick writes in a voice depends on the fields it reads alone. -/
theorem tickVoice_congr {v w : Voice} (h : v.tickReads = w.tickReads) (cfg : Config) (n i : Nat) :
    (tickVoice cfg n i v).tickPart = (tickVoice cfg n i w).tickPart := by
  cases v
  cases w
  simp only [Voice.tickReads, Prod.mk.injEq] at h
  obtain ⟨rfl, rfl, rfl, rfl, rfl, rfl⟩ := h
  rfl

theorem tickVoices_congr {vs ws : List Voice} (h : vs.map Voice.tickReads = ws.map Voice.tickReads) (cfg : Config)
    (n : Nat) : (tickVoices cfg n vs).map Voice.tickPart = (tickVoices cfg n ws).map Voice.tickPart := by
  refine List.ext_getElem? fun i => ?_
  have hi : vs[i]?.map Voice.tickReads = ws[i]?.map Voice.tickReads := by
    rw [← List.getElem?_map, ← List.getElem?_map, h]
  simp only [List.getElem?_map, tickVoices_getElem?]
  cases hv : vs[i]? <;> cases hw : ws[i]? <;> rw [hv, hw] at hi
  case none.some => cases hi
  case some.none => cases hi
  case some.some v w => exact congrArg some (tickVoice_congr (Option.some.inj hi) cfg n i)

/-- Settles O23: the frame of the foreground's operations, the frame of a TICK, and what a TICK depends on. -/
theorem fieldsHaveOneOwner : Obligations.FieldsHaveOneOwner := by
  refine ⟨fun i s t htick hreset h => ?_, fun s t h => ?_, fun s s' t t' hcfg hdraws hreads h h' => ?_⟩
  · obtain ⟨hframe, hparts⟩ := foreground_frame htick hreset h
    exact ⟨hparts, by rw [hframe]⟩
  · obtain ⟨-, rfl⟩ := tick_iff.1 h
    exact ⟨tickState_allocatorPart s, rfl, rfl⟩
  · obtain ⟨-, rfl⟩ := tick_iff.1 h
    obtain ⟨-, rfl⟩ := tick_iff.1 h'
    rw [tickState_voices, tickState_voices, ← hcfg, ← hdraws]
    exact tickVoices_congr hreads s.cfg s.draws

/-- A torn bit is cleared by the torn read, which only ATOMIC_ASSIGN = false has (60_exceptions.md R306). -/
theorem tickVoice_torn (cfg : Config) (n i : Nat) (v : Voice) :
    (tickVoice cfg n i v).torn = (v.torn && cfg.atomicAssign) := by
  have hclear : ∀ torn atomic : Bool, (torn && !(!atomic && torn)) = (torn && atomic) := by decide
  exact hclear v.torn cfg.atomicAssign

/-- Settles O25: `tickState` writes three registers, and `tickVoice` the tick's fields and the torn bit. -/
theorem tickLeavesTheForegroundRegisters : Obligations.TickLeavesTheForegroundRegisters := by
  intro s t h
  obtain ⟨-, rfl⟩ := tick_iff.1 h
  exact ⟨rfl, tickState_allocatorPart s, tick_map _ _ _ _ _ fun _ _ => rfl,
    tick_map _ _ _ _ _ fun i v => tickVoice_torn s.cfg s.draws i v⟩

/-! ## The smoother (42_envelope_smoother.md) -/

/-- One step of TRANSITION: on a crossing the distance to the target falls by 1 while it is not 0 (R144). -/
theorem smooth_transition_distance (zc : Bool) (T S : Byte) :
    (((smooth .transition zc T S).toNat : Int) - T.toNat).natAbs + (if zc = true ∧ S ≠ T then 1 else 0) =
      ((S.toNat : Int) - T.toNat).natAbs := by
  cases zc with
  | false => simp
  | true =>
    rcases Nat.lt_trichotomy S.toNat T.toNat with hlt | heq | hgt
    · have hne : S ≠ T := fun h => hlt.ne (congrArg BitVec.toNat h)
      have hup := smooth_transition_of_lt (BitVec.lt_def.2 hlt)
      rw [if_pos ⟨rfl, hne⟩]
      omega
    · obtain rfl : S = T := BitVec.eq_of_toNat_eq heq
      simp [smooth_transition_self]
    · have hne : S ≠ T := fun h => hgt.ne (congrArg BitVec.toNat h.symm)
      have hdown := smooth_transition_of_gt (BitVec.lt_def.2 hgt)
      rw [if_pos ⟨rfl, hne⟩]
      omega

/-- TRANSITION does not pass the target from below. -/
theorem smooth_transition_le (zc : Bool) {T S : Byte} (h : S ≤ T) : smooth .transition zc T S ≤ T := by
  cases zc with
  | false => rwa [smooth_of_no_crossing]
  | true =>
    rcases Nat.lt_or_eq_of_le (BitVec.le_def.1 h) with hlt | heq
    · have hup := smooth_transition_of_lt (BitVec.lt_def.2 hlt)
      exact BitVec.le_def.2 (by omega)
    · rw [BitVec.eq_of_toNat_eq heq, smooth_transition_self]
      exact BitVec.le_refl T

/-- TRANSITION does not pass the target from above. -/
theorem le_smooth_transition (zc : Bool) {T S : Byte} (h : T ≤ S) : T ≤ smooth .transition zc T S := by
  cases zc with
  | false => rwa [smooth_of_no_crossing]
  | true =>
    rcases Nat.lt_or_eq_of_le (BitVec.le_def.1 h) with hlt | heq
    · have hdown := smooth_transition_of_gt (BitVec.lt_def.2 hlt)
      exact BitVec.le_def.2 (by omega)
    · rw [← BitVec.eq_of_toNat_eq heq, smooth_transition_self]
      exact BitVec.le_refl T

/-- Settles O29: the laws of one smoother step on the voice the TICK leaves, whose target stays. -/
theorem transitionPolicyConverges : Obligations.TransitionPolicyConverges := by
  intro s t hpolicy h i v hv ht
  refine ⟨_, execTick_voice h hv ht, ?_, fun hle => ?_, fun hge => ?_⟩ <;>
    rw [stepVoice_smoothed, hpolicy, stepVoice_targetVolume]
  · exact smooth_transition_distance _ _ _
  · exact smooth_transition_le _ hle
  · exact le_smooth_transition _ hge

/-- Adding 0 to a `P`-bit phase changes nothing and carries nothing. -/
theorem phase_add_zero {P phase : Nat} (h : phase < 2 ^ P) :
    phaseSum P phase 0 = phase ∧ zeroCrossing P phase 0 = false :=
  ⟨Nat.mod_eq_of_lt h, decide_eq_false (Nat.not_le.2 h)⟩

/-- Settles O30: without an increment there is no carry, and without a crossing no policy writes. -/
theorem zeroIncrementVoiceStands : Obligations.ZeroIncrementVoiceStands := by
  intro s t hi h i v hv ht hzero
  obtain ⟨hphase, -⟩ := hi.phaseWidth v (List.mem_of_getElem? hv)
  obtain ⟨hsum, hcarry⟩ := phase_add_zero hphase
  refine ⟨_, execTick_voice h hv ht, ?_, ?_⟩ <;> rw [hzero]
  · exact hsum
  · rw [stepVoice_smoothed, hcarry, smooth_of_no_crossing]

/-! ## The duty (43_pwm_duty_gen.md) -/

/-- Every entry of the wavetable fits a signed byte, so its read is the entry (40_tables.md R103). -/
theorem readWav_toInt : ∀ a : Byte, (readWav a).toInt = wav.getD a.toNat 0 := by decide +kernel

theorem readWav_bounds : ∀ a : Byte, -127 ≤ (readWav a).toInt ∧ (readWav a).toInt ≤ 127 := by decide +kernel

/-- The high-order byte of a `P`-bit phase (40_tables.md R102). -/
theorem phase_div_lt {P phase : Nat} (hP : 8 ≤ P) (h : phase < 2 ^ P) : phase / 2 ^ (P - 8) < 256 := by
  refine Nat.div_lt_of_lt_mul ?_
  rwa [show (256 : Nat) = 2 ^ 8 from rfl, ← Nat.pow_add, Nat.sub_add_cancel hP]

theorem wavLookup_toInt {P phase : Nat} (hP : 8 ≤ P) (h : phase < 2 ^ P) :
    (wavLookup P phase).toInt = wav.getD (phase / 2 ^ (P - 8)) 0 := by
  rw [wavLookup, readWav_toInt, phaseIndex, BitVec.toNat_ofNat, Nat.mod_eq_of_lt (phase_div_lt hP h)]

/-- A volume is below 256 and a sample at most 127 either way, so the duty is neither 0 nor 255. -/
theorem dutyOf_bounds (vol : Byte) {sample : BitVec 8} (hlo : -127 ≤ sample.toInt) (hhi : sample.toInt ≤ 127) :
    1 ≤ (dutyOf vol sample).toNat ∧ (dutyOf vol sample).toNat ≤ 254 := by
  have hvol : vol.toNat < 256 := vol.isLt
  have hduty := dutyOf_toNat vol sample
  have hplo : -32385 ≤ (vol.toNat : Int) * sample.toInt := by nlinarith
  have hphi : (vol.toNat : Int) * sample.toInt ≤ 32385 := by nlinarith
  omega

/-- Settles O31: the duty is `dutyOf` of the volume and the sample at the phase the TICK left. -/
theorem dutyIsBiasedProduct : Obligations.DutyIsBiasedProduct := by
  intro s t hi h i v hv ht
  have hP := valid_P (tick_iff.1 h).1.1
  have hphase : (stepVoice s.cfg v.increment v.targetVolume v).phase < 2 ^ s.cfg.P := phaseSum_lt _ _ _
  obtain ⟨hlo, hhi⟩ := readWav_bounds (phaseIndex s.cfg.P (stepVoice s.cfg v.increment v.targetVolume v).phase)
  refine ⟨_, execTick_voice h hv ht, phase_div_lt hP hphase, ?_, ?_⟩
  · rw [stepVoice_duty, dutyOf_toNat, wavLookup_toInt hP hphase]
  · rw [stepVoice_duty]
    exact dutyOf_bounds _ hlo hhi

/-- Settles O33: the product is monotone in the volume by the sign of the sample, and floor and bias keep order. -/
theorem dutyIsMonotoneInVolume : Obligations.DutyIsMonotoneInVolume := by
  intro vol vol' sample hle
  have hvol : (vol.toNat : Int) ≤ vol'.toNat := Int.ofNat_le.2 (BitVec.le_def.1 hle)
  have hduty := dutyOf_toNat vol sample
  have hduty' := dutyOf_toNat vol' sample
  refine ⟨fun hpos => BitVec.le_def.2 ?_, fun hneg => BitVec.le_def.2 ?_, fun hzero => BitVec.eq_of_toNat_eq ?_⟩
  · have hprod := Int.mul_le_mul_of_nonneg_right hvol hpos.le
    omega
  · have hprod := Int.mul_le_mul_of_nonpos_right hvol hneg.le
    omega
  · have hsample : sample.toInt = 0 := by rw [hzero]; rfl
    rw [hsample, Int.mul_zero] at hduty
    exact Int.ofNat_inj.1 hduty

/-! ## Outputs -/

theorem emissions_getElem? (vs : List Voice) (i : Nat) : (emissions vs)[i]? = vs[i]?.map fun v => ⟨i, v.duty⟩ :=
  List.getElem?_mapIdx

/-- Settles O32: the outputs are those of the bank the TICK left, position by position. -/
theorem tickEmitsOneDutyPerVoice : Obligations.TickEmitsOneDutyPerVoice := by
  intro s t hi h
  obtain ⟨-, rfl⟩ := tick_iff.1 h
  have hlen := (tick_inv hi).voiceCount
  refine ⟨emissions (tickState s).voices, rfl, by rw [emissions, List.length_mapIdx, hlen]; rfl, fun i hlt => ?_⟩
  have hw := List.getElem?_eq_getElem (l := (tickState s).voices) (i := i) (by rwa [hlen])
  exact ⟨_, hw, by rw [emissions_getElem?, hw, Option.map_some]⟩

/-! ## Torn reads (60_exceptions.md R306) -/

theorem readsTorn_eq_false {cfg : Config} {v : Voice} (h : cfg.atomicAssign = true ∨ v.torn = false) :
    readsTorn cfg v = false := by
  rcases h with h | h <;> simp [readsTorn, h]

theorem tickTarget_cases (cfg : Config) (n i : Nat) (v : Voice) :
    tickTarget cfg n i v = v.tornT ∨ tickTarget cfg n i v = v.targetVolume := by
  unfold tickTarget
  split
  · exact .inl rfl
  · exact .inr rfl

/-- Settles O34: the drawn increment is reduced to `P` bits, the drawn target is one of two, the read clears the bit. -/
theorem tornReadLastsOneTick : Obligations.TornReadLastsOneTick := by
  intro s t h i v hv
  refine ⟨fun hatomic htorn => ?_, fun hstored => execTick_voice h hv (readsTorn_eq_false hstored)⟩
  obtain ⟨-, rfl⟩ := tick_iff.1 h
  have hreads : readsTorn s.cfg v = true := by simp [readsTorn, hatomic, htorn]
  have hdrawn : tickIncrement s.cfg s.draws i v < 2 ^ s.cfg.P := by
    rw [tickIncrement, if_pos hreads]
    exact Nat.mod_lt _ (Nat.two_pow_pos _)
  refine ⟨_, tickTarget s.cfg s.draws i v, hdrawn, tickTarget_cases .., ?_⟩
  rw [tickState_voices, tickVoices_getElem?, hv, Option.map_some, tickVoice, hreads, Bool.not_true, Bool.and_false]
  rfl

/-! ## TICK and DECODE -/

/-- Settles O35: the two operations write different registers and read none the other writes. -/
theorem tickAndDecodeCommute : Obligations.TickAndDecodeCommute := by
  intro s hr hs
  have htick : exec .tick s = .next (tickState s) := tick_iff.2 ⟨hr, rfl⟩
  have hdecode : exec .decode s = .next (decodeLatched s) := whenReady_whenAt hr hs _
  refine ⟨decodeLatched (tickState s), ?_, ?_⟩
  · rw [htick, andThen_next]
    exact whenReady_whenAt (s := tickState s) hr hs _
  · rw [hdecode, andThen_next]
    exact tick_iff.2 ⟨hr, rfl⟩

/-! ## The first TICK after RESET (70_reset_and_hazards.md R401) -/

theorem dutyOf_zero_volume (sample : BitVec 8) : dutyOf 0 sample = bias := by
  have hduty : ((dutyOf 0 sample).toNat : Int) = 128 := by simpa using dutyOf_toNat 0 sample
  exact BitVec.eq_of_toNat_eq (Int.ofNat_inj.1 hduty)

/-- A reset voice has increment 0 and volume 0, so a tick leaves every register of it. -/
theorem tickVoice_reset (cfg : Config) (n i : Nat) : tickVoice cfg n i (Voice.reset cfg) = Voice.reset cfg := by
  have hstored : readsTorn cfg (Voice.reset cfg) = false := readsTorn_eq_false (.inr rfl)
  obtain ⟨hsum, hcarry⟩ := phase_add_zero (P := cfg.P) (Nat.two_pow_pos _)
  rw [tickVoice_of_not_torn hstored]
  simp only [stepVoice, Voice.reset, hsum, hcarry, smooth_of_no_crossing, ite_self, dutyOf_zero_volume]

/-- Settles O39: the bank of reset voices is left as it is, and each emits the bias. -/
theorem resetBankIsSilent : Obligations.ResetBankIsSilent := by
  intro cfg inputs hc
  have hbank : tickVoices cfg 0 (List.replicate cfg.N (Voice.reset cfg)) = List.replicate cfg.N (Voice.reset cfg) :=
    List.ext_getElem? fun i => by
      rw [tickVoices_getElem?, List.getElem?_replicate]
      split
      · rw [Option.map_some, tickVoice_reset]
      · rfl
  have hemitted : emissions (List.replicate cfg.N (Voice.reset cfg)) = (List.range cfg.N).map fun i => ⟨i, bias⟩ :=
    List.ext_getElem? fun i => by
      rw [emissions_getElem?, List.getElem?_replicate, List.getElem?_map]
      split
      case isTrue hlt => rw [List.getElem?_range hlt]; rfl
      case isFalse hge => rw [List.getElem?_eq_none (by simpa using hge)]; rfl
  refine ⟨_, tick_iff.2 ⟨⟨hc, rfl⟩, rfl⟩, hbank, ?_⟩
  exact (congrArg emissions hbank).trans hemitted

end Sys2Proof.Machine
end

section
/-! PROOFS. Runs of ticks (41_phase_accumulator.md R125): the phase after `n` ticks, its period, the spacing of the zero
crossings, O36 to O38. -/

namespace Sys2Proof.Machine

/-! ## The phase after `n` ticks -/

theorem phaseSum_mod (P a b : Nat) : phaseSum P (a % 2 ^ P) b = (a + b) % 2 ^ P := Nat.mod_add_mod a (2 ^ P) b

/-- A tick sets no torn bit, so a voice not read torn stays so. -/
theorem readsTorn_stepVoice (cfg : Config) (I : Nat) (T : Byte) (v : Voice) :
    readsTorn cfg (stepVoice cfg I T v) = readsTorn cfg v := rfl

/-- The voice after `n` ticks: its phase has moved by `n` increments, and the next tick reads it as the first did. -/
theorem ticks_voice {s : State} (hr : s.Ready) {i : Nat} {v : Voice} (hv : s.voices[i]? = some v)
    (hphase : v.phase < 2 ^ s.cfg.P) (ht : readsTorn s.cfg v = false) (n : Nat) :
    ∃ (t : State) (w : Voice), ticks n s = .next t ∧ t.Ready ∧ t.cfg = s.cfg ∧ t.voices[i]? = some w ∧
      w.phase = (v.phase + n * v.increment) % 2 ^ s.cfg.P ∧ w.increment = v.increment ∧ readsTorn s.cfg w = false := by
  induction n with
  | zero => exact ⟨s, v, rfl, hr, rfl, hv, by rw [Nat.zero_mul, Nat.add_zero, Nat.mod_eq_of_lt hphase], rfl, ht⟩
  | succ n ih =>
    obtain ⟨t, w, hrun, hrt, hcfg, hw, hwphase, hwincrement, hwt⟩ := ih
    refine ⟨tickState t, stepVoice t.cfg w.increment w.targetVolume w, ?_, hrt, hcfg,
      tick_voice hw (by rwa [hcfg]), ?_, hwincrement, hwt⟩
    · rw [ticks, hrun, andThen_next]
      exact tick_iff.2 ⟨hrt, rfl⟩
    · show phaseSum t.cfg.P w.phase w.increment = _
      rw [hcfg, hwphase, hwincrement, phaseSum_mod, Nat.succ_mul, Nat.add_assoc]

/-- Settles O36: the voice after `n` ticks. -/
theorem phaseAfterTicks : Obligations.PhaseAfterTicks := by
  intro s i v n hr hi hv ht
  obtain ⟨hphase, -⟩ := hi.phaseWidth v (List.mem_of_getElem? hv)
  obtain ⟨t, w, hrun, -, -, hw, hwphase, hwincrement, -⟩ := ticks_voice hr hv hphase ht n
  exact ⟨t, w, hrun, hw, hwphase, hwincrement⟩

/-! ## The period -/

/-- `n` steps of `I` are a multiple of `M` exactly when `n` is a multiple of `M / gcd(I, M)`. -/
theorem dvd_mul_iff_div_gcd_dvd {M I n : Nat} (hM : 0 < M) : M ∣ n * I ↔ M / Nat.gcd I M ∣ n := by
  rw [Nat.div_dvd_iff_dvd_mul (Nat.gcd_dvd_right I M) (Nat.gcd_pos_of_pos_right I hM), Nat.gcd_comm,
    Nat.dvd_gcd_mul_iff_dvd_mul, Nat.mul_comm]

/-- Settles O37: the phase is back when the `n` increments are a multiple of `2^P`. -/
theorem phasePeriod : Obligations.PhasePeriod := by
  intro s i v n hr hi hv ht _
  obtain ⟨hphase, -⟩ := hi.phaseWidth v (List.mem_of_getElem? hv)
  obtain ⟨t, w, hrun, hw, hwphase, -⟩ := phaseAfterTicks s i v n hr hi hv ht
  have hback : w.phase = v.phase ↔ 2 ^ s.cfg.P ∣ n * v.increment := by
    rw [hwphase]
    nth_rewrite 2 [← Nat.mod_eq_of_lt hphase]
    exact Nat.add_modEq_left_iff
  rw [← dvd_mul_iff_div_gcd_dvd (Nat.two_pow_pos _), ← hback]
  constructor
  · rintro ⟨t', w', hrun', hw', h⟩
    cases hrun.symm.trans hrun'
    cases hw.symm.trans hw'
    exact h
  · exact fun h => ⟨t, w, hrun, hw, h⟩

/-! ## Zero crossings -/

/-- The addition carries exactly when the unwrapped sum enters the next multiple of `2^P`. -/
theorem zeroCrossing_mod_iff (P I x : Nat) :
    zeroCrossing P (x % 2 ^ P) I = true ↔ x / 2 ^ P < (x + I) / 2 ^ P := by
  have hx := Nat.div_add_mod x (2 ^ P)
  have hmod := Nat.mod_lt x (Nat.two_pow_pos P)
  rw [zeroCrossing, decide_eq_true_iff, Nat.lt_iff_add_one_le, Nat.le_div_iff_mul_le (Nat.two_pow_pos P),
    Nat.add_mul, Nat.one_mul, Nat.mul_comm]
  omega

/-- Tick `t` crosses when the phase, not wrapped, passes a multiple of `2^P` in it. -/
theorem crossesAtTick_iff {s : State} (hr : s.Ready) (hi : s.Inv) {i : Nat} {v : Voice} (hv : s.voices[i]? = some v)
    (ht : readsTorn s.cfg v = false) (t : Nat) : crossesAtTick s i (t + 1) ↔
      (v.phase + t * v.increment) / 2 ^ s.cfg.P < (v.phase + (t + 1) * v.increment) / 2 ^ s.cfg.P := by
  obtain ⟨u, w, hrun, hw, hwphase, hwincrement⟩ := phaseAfterTicks s i v t hr hi hv ht
  have hcarry : zeroCrossing s.cfg.P w.phase w.increment = true ↔
      (v.phase + t * v.increment) / 2 ^ s.cfg.P < (v.phase + (t + 1) * v.increment) / 2 ^ s.cfg.P := by
    rw [hwphase, hwincrement, zeroCrossing_mod_iff, Nat.succ_mul, Nat.add_assoc]
  rw [← hcarry]
  constructor
  · rintro ⟨-, u', w', hrun', hw', h⟩
    cases hrun.symm.trans hrun'
    cases hw.symm.trans hw'
    exact h
  · exact fun h => ⟨Nat.succ_pos t, u, w, hrun, hw, h⟩

/-- Two multiples of `M` passed one after the other, by steps of `I`, at the steps `a` and `b`: their distance is the
floor or the ceiling of `M / I`. -/
theorem spacing_of_consecutive {M I p a b : Nat} (hI : 0 < I) (hM : 0 < M) (hab : a < b)
    (ha : (p + a * I) / M < (p + (a + 1) * I) / M) (hb : (p + b * I) / M < (p + (b + 1) * I) / M)
    (hbetween : (p + (a + 1) * I) / M = (p + b * I) / M) :
    b - a = M / I ∨ b - a = (M + I - 1) / I := by
  have hc : p + a * I < (p + b * I) / M * M := (Nat.div_lt_iff_lt_mul hM).1 (hbetween ▸ ha)
  have hc' : (p + b * I) / M * M ≤ p + (a + 1) * I := hbetween ▸ Nat.div_mul_le_self _ M
  have hnext : p + b * I < (p + b * I) / M * M + M := Nat.lt_div_mul_add hM
  have hnext' : (p + b * I) / M * M + M ≤ p + (b + 1) * I := by
    rw [← Nat.succ_mul]
    exact (Nat.le_div_iff_mul_le hM).1 hb
  obtain ⟨d, rfl⟩ := Nat.exists_eq_add_of_lt hab
  simp only [Nat.add_mul, Nat.one_mul] at hc hc' hnext hnext'
  have hfloor : M / I < d + 1 + 1 := (Nat.div_lt_iff_lt_mul hI).2 (by simp only [Nat.add_mul, Nat.one_mul]; omega)
  have hceil : d + 1 ≤ (M + I - 1) / I := (Nat.le_div_iff_mul_le hI).2 (by simp only [Nat.add_mul, Nat.one_mul]; omega)
  have hone : (M + I - 1) / I ≤ M / I + 1 := Nat.add_div_right M hI ▸ Nat.div_le_div_right (Nat.sub_le _ 1)
  omega

/-- Settles O38: between the two crossings the quotient of the unwrapped phase by `2^P` stays. -/
theorem zeroCrossingSpacing : Obligations.ZeroCrossingSpacing := by
  intro s i v t1 t2 hr hi hv ht hpos hlt h1 h2 hnone
  obtain ⟨a, rfl⟩ := Nat.exists_eq_add_of_le' h1.1
  obtain ⟨b, rfl⟩ := Nat.exists_eq_add_of_le' h2.1
  have hcross := crossesAtTick_iff hr hi hv ht
  have hstays : ∀ m, a + 1 ≤ m → m ≤ b → (v.phase + (a + 1) * v.increment) / 2 ^ s.cfg.P =
      (v.phase + m * v.increment) / 2 ^ s.cfg.P := fun m ham => by
    induction m, ham using Nat.le_induction with
    | base => exact fun _ => rfl
    | succ m ham ih =>
      intro hmb
      have hnot := (hcross m).not.1 (hnone (m + 1) (by omega) (by omega))
      have hmono : (v.phase + m * v.increment) / 2 ^ s.cfg.P ≤ (v.phase + (m + 1) * v.increment) / 2 ^ s.cfg.P :=
        Nat.div_le_div_right (by rw [Nat.succ_mul]; omega)
      rw [ih (by omega)]
      omega
  have hspacing := spacing_of_consecutive hpos (Nat.two_pow_pos s.cfg.P) (by omega) ((hcross a).1 h1) ((hcross b).1 h2)
    (hstays b (by omega) le_rfl)
  rwa [Nat.add_sub_add_right]

end Sys2Proof.Machine
end

section
/-! PROOFS. The configuration and the tables (00_scope.md R6 to R15; 40_tables.md): O49, O54 to O56. -/

namespace Sys2Proof.Machine

/-! ## Which configurations are valid -/

/-- The check of neighbours is the order of all entries (00_scope.md R13). -/
theorem monotone_iff_pairwise (l : List Byte) : monotone l = true ↔ l.Pairwise (· ≤ ·) := by
  rw [← List.isChain_iff_pairwise]
  induction l with
  | nil => simp [monotone]
  | cons a l ih =>
    cases l with
    | nil => simp [monotone]
    | cons b l => rw [monotone, Bool.and_eq_true, decide_eq_true_iff, ih, List.isChain_cons_cons]

/-- The reads of a velocity map of 128 values keep the order of the velocities exactly when the map is monotone. -/
theorem monotone_iff_velocityVolume {cfg : Config} (hlen : cfg.velocityMap.length = 128) :
    monotone cfg.velocityMap = true ↔
      ∀ v1 v2 : Data7, v1 ≤ v2 → velocityVolume cfg v1 ≤ velocityVolume cfg v2 := by
  have hread : ∀ v : Data7, velocityVolume cfg v = cfg.velocityMap[v.toNat]'(hlen ▸ v.isLt) := fun v =>
    List.getD_eq_getElem ..
  rw [monotone_iff_pairwise, List.pairwise_iff_getElem]
  constructor
  · intro h v1 v2 hle
    rw [hread, hread]
    rcases Nat.lt_or_eq_of_le (BitVec.le_def.1 hle) with hlt | heq
    · exact h _ _ _ _ hlt
    · rw [BitVec.eq_of_toNat_eq heq]
      exact BitVec.le_refl _
  · intro h i j hi hj hlt
    have hi' : (BitVec.ofNat 7 i).toNat = i := Nat.mod_eq_of_lt (by omega)
    have hj' : (BitVec.ofNat 7 j).toNat = j := Nat.mod_eq_of_lt (by omega)
    have hle := h (BitVec.ofNat 7 i) (BitVec.ofNat 7 j) (BitVec.le_def.2 (by omega))
    simpa only [hread, hi', hj'] using hle

/-- The entries of a frequency table of 12 values are its reads (40_tables.md R104). -/
theorem freqTable_lt_iff {cfg : Config} (hlen : cfg.freqTable.length = 12) :
    (∀ f ∈ cfg.freqTable, f < 2 ^ cfg.P) ↔ ∀ n, n < 12 → readFreq cfg n < 2 ^ cfg.P := by
  rw [List.forall_mem_iff_getElem]
  refine forall_congr' fun n => ⟨fun h hn => ?_, fun h hn => ?_⟩
  · rw [readFreq, List.getD_eq_getElem _ _ (hlen ▸ hn)]
    exact h _
  · have hread := h (hlen ▸ hn)
    rwa [readFreq, List.getD_eq_getElem _ _ hn] at hread

/-- Settles O49: the checks of the two tables, read entry by entry. -/
theorem validConfigurationMeetsConstraints : Obligations.ValidConfigurationMeetsConstraints := by
  intro cfg
  rw [configValid_iff]
  constructor
  · rintro ⟨hN, hP, hoctave, hfreq, hbound, hmap, hmonotone, hW⟩
    exact ⟨hN, hP, hoctave, ⟨hfreq, (freqTable_lt_iff hfreq).1 hbound⟩,
      ⟨hmap, (monotone_iff_velocityVolume hmap).1 hmonotone⟩, hW⟩
  · rintro ⟨hN, hP, hoctave, ⟨hfreq, hbound⟩, ⟨hmap, hmonotone⟩, hW⟩
    exact ⟨hN, hP, hoctave, hfreq, (freqTable_lt_iff hfreq).2 hbound, hmap,
      (monotone_iff_velocityVolume hmap).2 hmonotone, hW⟩

/-! ## The wavetable -/

/-- The two halves of the table are opposite (40_tables.md R103). -/
theorem readWav_second_half : ∀ i : Data7, (readWav (markedByte i)).toInt = -(readWav (dataByte i)).toInt := by
  decide +kernel

/-- Each half of the table is its own mirror image (40_tables.md R103). -/
theorem readWav_mirror : ∀ i : Data7, i ≠ 0 → readWav (128#8 - dataByte i) = readWav (dataByte i) := by decide +kernel

/-- Settles O54, by evaluation of the 256 entries. -/
theorem wavetableSymmetriesAndBounds : Obligations.WavetableSymmetriesAndBounds :=
  ⟨by decide +kernel, by decide +kernel, by decide +kernel, by decide +kernel, by decide +kernel, readWav_second_half,
    readWav_mirror, readWav_bounds⟩

/-! ## The increment of a key -/

/-- `inc` by the division, with `OCTAVE_LOOKUP` and without (40_tables.md R106, R107). -/
theorem inc_eq (cfg : Config) (key : Data7) :
    inc cfg key = readFreq cfg (key.toNat % 12) >>> (cfg.maxOctave + 1 - key.toNat / 12) := by
  have hmod : key.toNat - 12 * (key.toNat / 12) = key.toNat % 12 := by omega
  rw [inc, octaveShift_eq, hmod]

/-- Settles O55: the closed form does not mention `octaveLookup`. -/
theorem incrementOfKey : Obligations.IncrementOfKey := by
  intro cfg key hc
  refine ⟨inc_eq cfg key, ?_, inc_lt hc key⟩
  rw [inc_eq, inc_eq]
  rfl

/-- One bit less of a right shift doubles the value, up to the bit shifted in. -/
theorem shiftRight_eq_two_mul_succ (f n : Nat) : f >>> n = 2 * (f >>> (n + 1)) ∨ f >>> n = 2 * (f >>> (n + 1)) + 1 := by
  rw [Nat.shiftRight_succ]
  omega

/-- Settles O56: an octave up is the same semitone, shifted by one bit less. -/
theorem octaveDoublesTheIncrement : Obligations.OctaveDoublesTheIncrement := by
  intro cfg key up hc hup
  have hoctave := (configValid_iff.1 hc).2.2.1
  have hlt : up.toNat < 128 := up.isLt
  have hsemitone : up.toNat % 12 = key.toNat % 12 := by omega
  have hshift : cfg.maxOctave + 1 - key.toNat / 12 = cfg.maxOctave + 1 - up.toNat / 12 + 1 := by omega
  rw [inc_eq, inc_eq, hsemitone, hshift]
  exact shiftRight_eq_two_mul_succ _ _

end Sys2Proof.Machine
end
